-- ==== Sys2Proof/Word.lean ====
section
/-! DEFINITION. The word types of the sundry framer: the widths of spec/10_state.md R20 and 30_encoding.md R61. -/

namespace Sys2Proof

/-- A byte: an unsigned 8-bit value, bit 7 the most significant (R8). -/
abbrev Byte := BitVec 8

/-- CNT, TSIZE and `total_size` (R25, R26, `TSIZE_W` of R6). -/
abbrev Word := BitVec 16

/-- WCNT, the window fill count (R23). -/
abbrev FillCount := BitVec 3

/-- SKIP, the discard counter, `SKIP_W` = 64 bits (R7, R24). -/
abbrev SkipCount := BitVec 64

/-- One input symbol as 9 bits: bit 8 is `eos`, bits 7..0 are `data` (R61). -/
abbrev SymbolWord := BitVec 9

end Sys2Proof
end

