-- ==== Sys2Proof/Config.lean ====
section
/-! DEFINITION. The parameters of spec/00_scope.md R6 and R7 as one configuration record. -/

namespace Sys2Proof

/-- The named parameters of R6 (fixed by the source) and R7 (fixed by the spec). -/
structure Config where
  /-- `SYNC_WORD[0]` to `SYNC_WORD[3]`, in wire order. -/
  sync0 : Byte
  sync1 : Byte
  sync2 : Byte
  sync3 : Byte
  /-- `SYNC_LEN`, `HEADER_LEN`, `LEN_FIELD_LEN`: the sizes of the fixed parts of a frame. -/
  syncLen : Nat
  headerLen : Nat
  lenFieldLen : Nat
  /-- `TOTAL_HEADER_SIZE`: the least legal `total_size`. -/
  totalHeaderSize : Nat
  /-- `HDR_OFF`, `LEN_OFF`, `PAY_OFF`: the offsets of the fields of a frame. -/
  hdrOff : Nat
  lenOff : Nat
  payOff : Nat
  /-- `TSIZE_W`, `MAX_FRAME`, `BYTE_W`. -/
  tsizeW : Nat
  maxFrame : Nat
  byteW : Nat
  /-- `FB_BYTES`, `SKIP_W`, the symbol width and the number of frame buffers (R7). -/
  fbBytes : Nat
  skipW : Nat
  symbolW : Nat
  frameBuffers : Nat
  deriving DecidableEq, Repr

/-- The values of R6 and R7. -/
abbrev Config.sundry : Config where
  sync0 := 0xFA
  sync1 := 0xFA
  sync2 := 0xF0
  sync3 := 0xF0
  syncLen := 4
  headerLen := 11
  lenFieldLen := 2
  totalHeaderSize := 17
  hdrOff := 4
  lenOff := 15
  payOff := 17
  tsizeW := 16
  maxFrame := 65535
  byteW := 8
  fbBytes := 65535
  skipW := 64
  symbolW := 9
  frameBuffers := 1

/-- `SYNC_WORD` as a byte list in stream order (R6, R8). -/
def Config.syncWord : List Byte :=
  [Config.sundry.sync0, Config.sundry.sync1, Config.sundry.sync2, Config.sundry.sync3]

end Sys2Proof
end

