-- ==== Sys2Proof/Syntax.lean ====
section
/-! DEFINITION. The names of the machine: control states, symbols, events, the ten operations, and the
context that selects among them (spec/30_encoding.md R60, R69, R70; 00_scope.md R10). -/

namespace Sys2Proof

/-- The values of ST (R21). -/
inductive ControlState where
  | scanning
  | decoding
  | recovering
  | done
  deriving DecidableEq, Repr

/-- The sliding window W[0..3], oldest byte in `w0` (R22, R37). -/
structure Window where
  w0 : Byte
  w1 : Byte
  w2 : Byte
  w3 : Byte
  deriving DecidableEq, Repr

/-- An input symbol (R40). -/
inductive Symbol where
  | byte (b : Byte)
  | eos
  deriving DecidableEq, Repr

/-- The kinds of decode failure (R120). -/
inductive FailureKind where
  | truncated
  | malformed
  deriving DecidableEq, Repr

/-- The output events (R10). -/
inductive Event where
  | sync (skipped : SkipCount)
  | msg (rawBytes : List Byte) (totalSize : Word)
  | err (kind : FailureKind)
  | exhausted
  deriving DecidableEq, Repr

/-- The format classes of R60: by the symbol an operation takes. -/
inductive Format where
  /-- `B`: a byte. -/
  | byteSymbol
  /-- `E`: end-of-stream. -/
  | endSymbol
  /-- `X`: no symbol. -/
  | noSymbol
  deriving DecidableEq, Repr

/-- The ten operations of R70, one constructor per row of spec/opcode_table.json; `b` is `data[7:0]`. -/
inductive Instr where
  /-- SCAN.SHIFT (R82). -/
  | scanShift (b : Byte)
  /-- SCAN.MATCH (R83). -/
  | scanMatch (b : Byte)
  /-- SCAN.EOS (R84). -/
  | scanEos
  /-- HDR.BYTE (R91). -/
  | hdrByte (b : Byte)
  /-- LEN.HI (R92). -/
  | lenHi (b : Byte)
  /-- LEN.LO (R93). -/
  | lenLo (b : Byte)
  /-- PAY.BYTE (R94). -/
  | payByte (b : Byte)
  /-- DEC.EOS (R95). -/
  | decEos
  /-- DONE.HOLD (R107). -/
  | doneHold
  /-- RESET (R108). -/
  | reset
  deriving DecidableEq, Repr

/-- What selects an operation beside the symbol and the reset input: ST, CNT, and the window registers
the match test reads (R69, R81). -/
structure Ctx where
  st : ControlState
  cnt : Word
  win : Window
  wcnt : FillCount
  deriving DecidableEq, Repr

/-- Why the decoder refuses. -/
inductive DecodeRefusal where
  /-- A symbol presented in Decoding with `CNT < 4`: the unreachable combination (R71, R111). -/
  | noRow
  deriving DecidableEq, Repr

end Sys2Proof
end

