-- ==== Sys2Proof/WellFormed.lean ====
section
/-! DEFINITION. Which terms of `Instr` an encoding can stand for. -/

namespace Sys2Proof

/-- The operand of SCAN.MATCH is necessarily `SYNC_WORD[3]` = F0 (R81, R83); every other operation takes
every byte (R73). -/
def Instr.wellFormed : Instr → Bool
  | .scanShift _ => true
  | .scanMatch b => b == Config.sundry.sync3
  | .scanEos => true
  | .hdrByte _ => true
  | .lenHi _ => true
  | .lenLo _ => true
  | .payByte _ => true
  | .decEos => true
  | .doneHold => true
  | .reset => true

end Sys2Proof
end

