-- ==== Sys2Proof/Decode.lean ====
section
/-! DEFINITION. The symbol format (R61), the match test (R81), the operation map as a decoder (R70, R71)
and its encoder. -/

namespace Sys2Proof

/-- The symbol 9 bits stand for: `data` is ignored when `eos` is set (R61). -/
def symbolOf (w : SymbolWord) : Symbol :=
  if w.getLsbD 8 then .eos else .byte (w.setWidth 8)

/-- The 9 bits of a symbol (R61); the ignored `data` of EOS is written as zeros. -/
def Symbol.word : Symbol → SymbolWord
  | .byte b => b.setWidth 9
  | .eos => 0x100

/-- The shift chain `W[0] <- W[1]; W[1] <- W[2]; W[2] <- W[3]; W[3] <- b` (R22). -/
def Window.shift (w : Window) (b : Byte) : Window := ⟨w.w1, w.w2, w.w3, b⟩

/-- Byte by byte, the window equals the sync word (R45 (d), R81). -/
def Window.isSync (w : Window) : Bool :=
  w.w0 == Config.sundry.sync0 && w.w1 == Config.sundry.sync1 &&
    w.w2 == Config.sundry.sync2 && w.w3 == Config.sundry.sync3

/-- `min(4, WCNT + 1)` (R81). -/
def fillNext (n : FillCount) : FillCount := if n.toNat < 4 then n + 1 else 4

/-- The match test match' of R81. -/
def matchAfter (w : Window) (n : FillCount) (b : Byte) : Bool :=
  fillNext n == 4 && (w.shift b).isSync

/-- Scanning or Recovering: a state in which the scanner is active (R80). -/
def ControlState.isScan : ControlState → Bool
  | .scanning => true
  | .decoding => false
  | .recovering => true
  | .done => false

/-- The format class of an operation (R60). -/
def Instr.format : Instr → Format
  | .scanShift _ => .byteSymbol
  | .scanMatch _ => .byteSymbol
  | .scanEos => .endSymbol
  | .hdrByte _ => .byteSymbol
  | .lenHi _ => .byteSymbol
  | .lenLo _ => .byteSymbol
  | .payByte _ => .byteSymbol
  | .decEos => .endSymbol
  | .doneHold => .noSymbol
  | .reset => .noSymbol

/-- The conditions on ST, CNT and match' of an operation's row in the map (R70); the decoder's refusing arm
of R71 is `decodeInFrame`'s. -/
def Instr.row (i : Instr) (c : Ctx) : Bool :=
  match i with
  | .scanShift b => c.st.isScan && !matchAfter c.win c.wcnt b
  | .scanMatch b => c.st.isScan && matchAfter c.win c.wcnt b
  | .scanEos => c.st.isScan
  | .hdrByte _ => c.st == .decoding && decide (4 ≤ c.cnt.toNat) && decide (c.cnt.toNat ≤ 14)
  | .lenHi _ => c.st == .decoding && decide (c.cnt.toNat = 15)
  | .lenLo _ => c.st == .decoding && decide (c.cnt.toNat = 16)
  | .payByte _ => c.st == .decoding && decide (17 ≤ c.cnt.toNat)
  | .decEos => c.st == .decoding
  | .doneHold => c.st == .done
  | .reset => true

/-- The operation a byte selects in Decoding, by a CNT of 4 or more (R70). -/
def decodeFrameByte (n : Nat) (b : Byte) : Instr :=
  if n < Config.sundry.lenOff then .hdrByte b
  else if n = Config.sundry.lenOff then .lenHi b
  else if n < Config.sundry.payOff then .lenLo b
  else .payByte b

/-- The operation a symbol selects in Decoding with that CNT (R70); the unreachable combination of
Decoding with CNT below 4 is refused, whatever the symbol (R71, R111). -/
def decodeInFrame (n : Nat) (sym : Symbol) : Except DecodeRefusal Instr :=
  if n < Config.sundry.hdrOff then .error .noRow
  else
    match sym with
    | .eos => .ok .decEos
    | .byte b => .ok (decodeFrameByte n b)

/-- The operation a symbol selects (R70), the reset input not asserted. -/
def decodeSymbol (c : Ctx) (sym : Symbol) : Except DecodeRefusal Instr :=
  match c.st with
  | .done => .ok .doneHold
  | .decoding => decodeInFrame c.cnt.toNat sym
  | .scanning | .recovering =>
    match sym with
    | .eos => .ok .scanEos
    | .byte b => if matchAfter c.win c.wcnt b then .ok (.scanMatch b) else .ok (.scanShift b)

/-- The decoder: the reset input overrides any symbol (R71, R108); otherwise R70. -/
def decode (resetIn : Bool) (c : Ctx) (w : SymbolWord) : Except DecodeRefusal Instr :=
  if resetIn then .ok .reset else decodeSymbol c (symbolOf w)

/-- The 9-bit pattern of an operation's row (R78), the ignored letters `x` and the unsampled letters `n`
written as zeros. -/
def encode : Instr → SymbolWord
  | .scanShift b => (Symbol.byte b).word
  | .scanMatch b => (Symbol.byte b).word
  | .scanEos => Symbol.eos.word
  | .hdrByte b => (Symbol.byte b).word
  | .lenHi b => (Symbol.byte b).word
  | .lenLo b => (Symbol.byte b).word
  | .payByte b => (Symbol.byte b).word
  | .decEos => Symbol.eos.word
  | .doneHold => 0
  | .reset => 0

/-- The selecting context right after RESET (R35). -/
def Ctx.afterReset : Ctx := ⟨.scanning, 0, ⟨0, 0, 0, 0⟩, 0⟩

/-- The operation the decoder reads, right after RESET, from a symbol whose bits are `w`; none where `w`
has a bit above the 9 of R61. -/
def decodeTableWord (nbits w : Nat) : Option Instr :=
  let v := w % 2 ^ nbits
  if v < 512 then
    match decode false Ctx.afterReset (BitVec.ofNat 9 v) with
    | .ok i => some i
    | .error _ => none
  else none

end Sys2Proof
end

