-- ==== Sys2Proof/Machine/State.lean ====
section
/-! DEFINITION. The machine's state (spec/10_state.md R20), why a step can stop, and the state after
reset (R35). -/

namespace Sys2Proof.Machine

/-- One entry of the environment's reset schedule: after `after` further steps the reset input is
asserted for one step, and `stream` is what the byte source presents from then on (R108, R118, R143).
Model's own, log entry 2. -/
structure ResetPlan where
  after : Nat
  stream : List Byte
  deriving DecidableEq, Repr

/-- Everything R20 names, and three fields of the model's own (R30: environment and output). -/
structure State where
  /-- ST, the control state (R21). -/
  st : ControlState
  /-- W[0..3], the sliding window (R22). -/
  win : Window
  /-- WCNT, the window fill count (R23). -/
  wcnt : FillCount
  /-- SKIP, the discard counter (R24). -/
  skip : SkipCount
  /-- CNT, the frame byte count (R25). -/
  cnt : Word
  /-- TSIZE, the decoded total size (R26). -/
  tsize : Word
  /-- FB, the frame buffer (R27): the written cells, indices strictly rising; no other cell holds a value. -/
  fb : List Host.Cell
  /-- POS, the ghost stream position (R29). -/
  pos : Nat
  /-- The bytes the source has not delivered yet; EOS for ever after them (R40, R41). Model's own, log entry 1. -/
  input : List Byte
  /-- The environment's reset schedule. Model's own, log entry 2. -/
  plan : List ResetPlan
  /-- The output event list in order of emission (R44). Model's own, log entry 3. -/
  out : List Event
  deriving DecidableEq, Repr

/-- The registers that R36 gives a meaning only in some states. -/
inductive Register where
  | w (k : Fin 4)
  | wcnt
  | skip
  | tsize
  deriving DecidableEq, Repr

/-- Why the model stops where a rule would read what holds no value. -/
inductive Fault where
  /-- A read of an FB cell that nothing has written in the current decode attempt (R47): raised by
  `State.readFb`. Safe: no state reachable from RESET raises it. -/
  | unwrittenCell (index : Nat)
  /-- A write to an FB index above 65534 (R50): raised by `State.memWrite`. Safe: no state reachable
  from RESET raises it. -/
  | noSuchCell (index : Nat)
  /-- A read of a register where R36 gives it no meaning: raised by the register accessors of
  Machine/Ops.lean. Safe: no state reachable from RESET raises it. -/
  | meaningless (r : Register)
  deriving DecidableEq, Repr

/-- Why the model gives a step no meaning. -/
inductive Refusal where
  /-- The operation of that mnemonic has no meaning yet: raised by `exec`'s arms. Safe. -/
  | notModelled (mnemonic : String)
  /-- A symbol, byte or EOS, in Decoding with `CNT < 4`: the unreachable combination that R71 and R111 ask
  a model to refuse. Raised by `step`. Safe: unreachable. -/
  | noRow
  /-- An operation executed where its row of the map does not hold (R70, log entry 6). Raised by
  `State.whenSelected`. Safe: `step` runs only the operation whose row holds. -/
  | notSelected
  deriving DecidableEq, Repr

/-- The three outcomes of one operation or step. -/
abbrev StepResult := Host.Outcome State Fault Refusal

/-- The machine right after RESET (R35, R108); FB, which RESET does not write, lists no cell; no stream
is attached, no reset is scheduled, nothing is emitted. -/
def State.reset : State where
  st := .scanning
  win := ⟨0, 0, 0, 0⟩
  wcnt := 0
  skip := 0
  cnt := 0
  tsize := 0
  fb := []
  pos := 0
  input := []
  plan := []
  out := []

end Sys2Proof.Machine
end

