-- ==== Sys2Proof/Machine/Operands.lean ====
section
/-! DEFINITION. Operand assembly (spec/30_encoding.md R64, R65) and what a step is selected by: the
presented symbol, the reset input and the context (R40, R41, R69). -/

namespace Sys2Proof.Machine

/-- `total_size = {hi, lo}`: big-endian, 256 * hi + lo (R45, R64). -/
def assembleTotalSize (hi lo : Byte) : Word := hi ++ lo

/-- `remaining = total_size - 17`, formed only after the check `total_size >= 17` (R65, R98). -/
def remainingOf (t : Word) : Option Nat :=
  if t.toNat < Config.sundry.totalHeaderSize then none
  else some (t.toNat - Config.sundry.totalHeaderSize)

/-- The symbol the environment presents: the next byte, or EOS for ever once the bytes are gone (R40, R41). -/
def State.presented (s : State) : Symbol :=
  match s.input with
  | [] => .eos
  | b :: _ => .byte b

/-- The reset input is asserted in this step (R108). -/
def State.resetIn (s : State) : Bool :=
  match s.plan with
  | [] => false
  | p :: _ => p.after == 0

/-- The registers that select an operation (R69). -/
def State.ctx (s : State) : Ctx := ⟨s.st, s.cnt, s.win, s.wcnt⟩

/-- The operation this step performs: the block's counterpart of instruction fetch and decode (R54, R70). -/
def State.fetch (s : State) : Except DecodeRefusal Instr :=
  decode s.resetIn s.ctx s.presented.word

end Sys2Proof.Machine
end

