-- ==== Sys2Proof/Machine/Ops.lean ====
section
/-! DEFINITION. The named operations over registers, frame buffer and output, and the failure entry
(spec/60_exceptions.md R126), shared by the meanings. -/

namespace Sys2Proof.Machine

/-! ### The frame buffer as cells -/

/-- The value a cell holds, if it holds one (R47). -/
def fbCell : List Host.Cell → Nat → Option Byte
  | [], _ => none
  | c :: cs, i => if c.1 = i then some c.2 else fbCell cs i

/-- One byte written at an index, keeping indices strictly rising. -/
def fbPut : List Host.Cell → Nat → Byte → List Host.Cell
  | [], i, b => [(i, b)]
  | c :: cs, i, b =>
    if c.1 < i then c :: fbPut cs i b
    else if c.1 = i then (i, b) :: cs
    else (i, b) :: c :: cs

/-- The indices are at least `lo`, rise strictly, and are all below `FB_BYTES` (R27). -/
def fbRising : Nat → List Host.Cell → Bool
  | _, [] => true
  | lo, c :: cs => decide (lo ≤ c.1) && decide (c.1 < Config.sundry.fbBytes) && fbRising (c.1 + 1) cs

/-- The canonical form of the frame buffer: indices strictly rising, each in 0..65534. An unlisted cell
holds no value, so every listed entry differs from it. -/
def Memory.wf (fb : List Host.Cell) : Bool := fbRising 0 fb

/-! ### Reading: only what holds a value (R36, R47) -/

/-- Goes on with what a read or a write gives, or stops with its fault. -/
def orFault {α : Type} (r : Except Fault α) (k : α → StepResult) : StepResult :=
  match r with
  | .ok a => k a
  | .error f => .fault f

/-- `FB[i]`, meaningful in Decoding for `i < CNT` (R36, R47). -/
def State.readFb (s : State) (i : Nat) : Except Fault Byte :=
  if s.st = .decoding ∧ i < s.cnt.toNat then
    match fbCell s.fb i with
    | some b => .ok b
    | none => .error (.unwrittenCell i)
  else .error (.unwrittenCell i)

/-- `MemRead(FB, a, n)` (R9). -/
def State.memRead (s : State) (a : Nat) : Nat → Except Fault (List Byte)
  | 0 => .ok []
  | n + 1 =>
    match s.memRead a n with
    | .ok bs =>
      match s.readFb (a + n) with
      | .ok b => .ok (bs ++ [b])
      | .error f => .error f
    | .error f => .error f

/-- `MemWrite(FB, i, 1, b)` (R9, R48, R50). -/
def State.memWrite (s : State) (i : Nat) (b : Byte) : Except Fault State :=
  if i < Config.sundry.fbBytes then .ok { s with fb := fbPut s.fb i b }
  else .error (.noSuchCell i)

/-- `W[3-k]`, meaningful in a scan state when `WCNT > k` (R36). -/
def State.readW (s : State) (k : Fin 4) : Except Fault Byte :=
  if s.st.isScan ∧ k.val < s.wcnt.toNat then
    .ok (match k with
      | 0 => s.win.w3
      | 1 => s.win.w2
      | 2 => s.win.w1
      | 3 => s.win.w0)
  else .error (.meaningless (.w k))

/-- `WCNT`, meaningful in a scan state (R36). -/
def State.readWcnt (s : State) : Except Fault FillCount :=
  if s.st.isScan then .ok s.wcnt else .error (.meaningless .wcnt)

/-- `SKIP`, meaningful in a scan state (R36). -/
def State.readSkip (s : State) : Except Fault SkipCount :=
  if s.st.isScan then .ok s.skip else .error (.meaningless .skip)

/-- `TSIZE`, meaningful in Decoding with `CNT >= 17` (R36). -/
def State.readTsize (s : State) : Except Fault Word :=
  if s.st = .decoding ∧ Config.sundry.payOff ≤ s.cnt.toNat then .ok s.tsize
  else .error (.meaningless .tsize)

/-! ### Register updates -/

/-- An increment that saturates at 2^64 - 1 (R24). -/
def satSucc (k : SkipCount) : SkipCount := if k.toNat = 2 ^ 64 - 1 then k else k + 1

/-- SKIP after a byte is shifted in: one more is discarded when the window was full (R24, R82, R83). -/
def State.skipAfterShift (s : State) : Except Fault SkipCount :=
  match s.readWcnt with
  | .error f => .error f
  | .ok n =>
    match s.readSkip with
    | .error f => .error f
    | .ok k => .ok (if n.toNat = 4 then satSucc k else k)

/-- The window and its fill count after a byte is shifted in (R22, R23). -/
def State.shiftIn (s : State) (b : Byte) : State :=
  { s with win := s.win.shift b, wcnt := fillNext s.wcnt }

/-- `POS <- POS + 1`: one byte of the stream is consumed (R28, R29). -/
def State.consumed (s : State) : State := { s with pos := s.pos + 1 }

/-- `emit e`: appended to the output list (R44). -/
def State.emit (s : State) (e : Event) : State := { s with out := s.out ++ [e] }

/-- `CNT <- 0; WCNT <- 0; SKIP <- 0`: no Message under construction, an empty window, nothing discarded
(R23, R24, R25). -/
def State.clearForScan (s : State) : State := { s with cnt := 0, wcnt := 0, skip := 0 }

/-- The start of a decode attempt: the sync word recorded as FB[0..3], CNT 4, TSIZE 0, Decoding (R83). It
is also how recovery ends (R128). -/
def State.beginFrame (s : State) : State :=
  { s with
    fb := fbPut (fbPut (fbPut (fbPut s.fb 0 Config.sundry.sync0) 1 Config.sundry.sync1)
      2 Config.sundry.sync2) 3 Config.sundry.sync3
    cnt := 4
    tsize := 0
    st := .decoding }

/-! ### The ends of a decode attempt -/

/-- `raise K`, the failure entry: the block's counterpart of taking an exception (R126). Nothing is saved;
control goes to Recovering. -/
def State.raise (s : State) (k : FailureKind) : State :=
  { (s.emit (.err k)).clearForScan with st := .recovering }

/-- A completed Message goes out and a fresh scan begins (R93, R94). -/
def State.deliver (s : State) (raw : List Byte) (t : Word) : State :=
  { (s.emit (.msg raw t)).clearForScan with st := .scanning }

/-! ### Selection and the environment -/

/-- An operation has its effect only where its row of the map holds (R70). -/
def State.whenSelected (s : State) (i : Instr) (k : StepResult) : StepResult :=
  if i.row s.ctx then k else .refused .notSelected

/-- The environment's reset schedule, one step later. -/
def tickPlan : List ResetPlan → List ResetPlan
  | [] => []
  | p :: ps => { p with after := p.after - 1 } :: ps

/-- What the environment does after an operation: a byte that was taken is gone (R40, R48 (d)); EOS stays,
and a symbol that was not taken stays (R41, R107, R108); after RESET the next session's stream is
presented (R118). -/
def State.advanceEnv (s : State) (i : Instr) : State :=
  match i with
  | .reset =>
    match s.plan with
    | [] => s
    | p :: ps => { s with input := p.stream, plan := ps }
  | _ =>
    match i.format with
    | .byteSymbol => { s with input := s.input.tail, plan := tickPlan s.plan }
    | .endSymbol => { s with plan := tickPlan s.plan }
    | .noSymbol => { s with plan := tickPlan s.plan }

/-- An operation's outcome with the environment's move added. -/
def thenEnv (r : StepResult) (i : Instr) : StepResult :=
  match r with
  | .next t => .next (t.advanceEnv i)
  | .fault f => .fault f
  | .refused q => .refused q

end Sys2Proof.Machine
end

