-- ==== Sys2Proof/Machine/Control.lean ====
section
/-! DEFINITION. The operations of the control state machine (spec/42_control_fsm.md): DONE.HOLD, RESET. -/

namespace Sys2Proof.Machine

/-- DONE.HOLD (R107): the terminal state holds. -/
def execDoneHold (s : State) : StepResult :=
  s.whenSelected .doneHold <| .next s

/-- RESET (R108): the reset values of R35; FB is not written and no event is emitted. -/
def execReset (s : State) : StepResult :=
  s.whenSelected .reset <|
    .next { s with
      st := .scanning
      wcnt := 0
      win := ⟨0, 0, 0, 0⟩
      skip := 0
      cnt := 0
      tsize := 0
      pos := 0 }

end Sys2Proof.Machine
end

