-- ==== Sys2Proof/Machine/FrameDecoder.lean ====
section
/-! DEFINITION. The frame decoder (spec/41_frame_decoder.md): HDR.BYTE, LEN.HI, LEN.LO, PAY.BYTE, DEC.EOS. -/

namespace Sys2Proof.Machine

/-- HDR.BYTE (R91): capture one header byte. -/
def execHdrByte (b : Byte) (s : State) : StepResult :=
  s.whenSelected (.hdrByte b) <|
    orFault (s.memWrite s.cnt.toNat b) fun s1 =>
      .next { s1.consumed with cnt := s.cnt + 1 }

/-- LEN.HI (R92): capture the high byte of the length field. -/
def execLenHi (b : Byte) (s : State) : StepResult :=
  s.whenSelected (.lenHi b) <|
    orFault (s.memWrite Config.sundry.lenOff b) fun s1 =>
      .next { s1.consumed with cnt := 16 }

/-- LEN.LO (R93): capture the low byte, decode `total_size`, range-check it before any subtraction, and
complete the frame at once if it has no payload. -/
def execLenLo (b : Byte) (s : State) : StepResult :=
  s.whenSelected (.lenLo b) <|
    orFault (s.readFb Config.sundry.lenOff) fun hi =>
    orFault (s.memWrite (Config.sundry.lenOff + 1) b) fun s1 =>
      let t := assembleTotalSize hi b
      let s2 := { s1 with tsize := t }.consumed
      if t.toNat < Config.sundry.totalHeaderSize then .next (s2.raise .malformed)
      else if t.toNat = Config.sundry.totalHeaderSize then
        orFault (s.memRead 0 16) fun front => .next (s2.deliver (front ++ [b]) t)
      else .next { s2 with cnt := 17 }

/-- PAY.BYTE (R94): capture one payload byte, and complete the frame if it is the last. -/
def execPayByte (b : Byte) (s : State) : StepResult :=
  s.whenSelected (.payByte b) <|
    orFault s.readTsize fun t =>
    orFault (s.memWrite s.cnt.toNat b) fun s1 =>
      if s.cnt.toNat + 1 = t.toNat then
        orFault (s.memRead 0 s.cnt.toNat) fun front => .next (s1.consumed.deliver (front ++ [b]) t)
      else .next { s1.consumed with cnt := s.cnt + 1 }

/-- DEC.EOS (R95): the stream ends inside a frame. -/
def execDecEos (s : State) : StepResult :=
  s.whenSelected .decEos <| .next (s.raise .truncated)

end Sys2Proof.Machine
end

