-- ==== Sys2Proof/Machine/Scanner.lean ====
section
/-! DEFINITION. The sync-word scanner (spec/40_scanner.md): SCAN.SHIFT, SCAN.MATCH, SCAN.EOS. -/

namespace Sys2Proof.Machine

/-- SCAN.SHIFT (R82): shift in a byte that does not complete the sync word. -/
def execScanShift (b : Byte) (s : State) : StepResult :=
  s.whenSelected (.scanShift b) <|
    orFault s.skipAfterShift fun k =>
      .next ({ s with skip := k }.shiftIn b).consumed

/-- SCAN.MATCH (R83): shift in the byte that completes the sync word, report the discard count, begin a
decode attempt. -/
def execScanMatch (b : Byte) (s : State) : StepResult :=
  s.whenSelected (.scanMatch b) <|
    orFault s.skipAfterShift fun k =>
      .next ((({ s with skip := k }.shiftIn b).consumed.emit (.sync k)).beginFrame)

/-- SCAN.EOS (R84): the stream ends during a scan. -/
def execScanEos (s : State) : StepResult :=
  s.whenSelected .scanEos <| .next { s.emit .exhausted with st := .done }

end Sys2Proof.Machine
end

