-- ==== Sys2Proof/Machine/Dispatch.lean ====
section
/-! DEFINITION. One arm per operation of spec/30_encoding.md R70. -/

namespace Sys2Proof.Machine

def exec (i : Instr) (s : State) : Host.Outcome State Fault Refusal :=
  match i with
  | .scanShift b => Sys2Proof.Machine.execScanShift b s
  | .scanMatch b => Sys2Proof.Machine.execScanMatch b s
  | .scanEos => Sys2Proof.Machine.execScanEos s
  | .hdrByte b => Sys2Proof.Machine.execHdrByte b s
  | .lenHi b => Sys2Proof.Machine.execLenHi b s
  | .lenLo b => Sys2Proof.Machine.execLenLo b s
  | .payByte b => Sys2Proof.Machine.execPayByte b s
  | .decEos => Sys2Proof.Machine.execDecEos s
  | .doneHold => Sys2Proof.Machine.execDoneHold s
  | .reset => Sys2Proof.Machine.execReset s

end Sys2Proof.Machine
end

