-- ==== Sys2Proof/Machine/Step.lean ====
section
/-! DEFINITION. One step of the machine: the environment presents a symbol (or asserts reset), the block
performs the operation it selects, the environment moves on (spec/00_scope.md R5, 42_control_fsm.md R111). -/

namespace Sys2Proof.Machine

/-- One step (R70, R71, R111). -/
def step (s : State) : Host.Outcome State Fault Refusal :=
  match s.fetch with
  | .ok i => thenEnv (exec i s) i
  | .error .noRow => .refused .noRow

/-- `s` with the symbol whose bits are `w` presented next and the reset input not asserted: a byte is put
in front of the stream, EOS ends the stream (log entry 11). -/
def State.withFetchWord (s : State) (nbits w : Nat) : State :=
  let v := w % 2 ^ nbits
  { s with
    input := match symbolOf (BitVec.ofNat 9 v) with
      | .byte b => b :: s.input
      | .eos => []
    plan := s.plan.dropWhile fun p => p.after == 0 }

end Sys2Proof.Machine
end

