-- ==== Sys2Proof/Machine/Flags.lean ====
section
/-! DEFINITION. The block has no status flags (spec/10_state.md R31); what software would test is carried
by ST and by the events. This file holds their numeric encodings (R21, R67, R121). -/

namespace Sys2Proof.Machine

/-- The 2-bit encoding of ST (R21). -/
def stCode : ControlState → BitVec 2
  | .scanning => 0
  | .decoding => 1
  | .recovering => 2
  | .done => 3

/-- The cause code of a decode failure (R121). -/
def causeCode : FailureKind → BitVec 2
  | .truncated => 1
  | .malformed => 2

/-- The status-channel code of an event and, for SYNC, its `skipped` field; MSG does not go out on the
status channel, and the other events' field is not meaningful (R67). -/
def statusOf : Event → Option (BitVec 2 × Option SkipCount)
  | .sync k => some (0, some k)
  | .msg _ _ => none
  | .err k => some (causeCode k, none)
  | .exhausted => some (3, none)

end Sys2Proof.Machine
end

