-- ==== Sys2Proof/Machine/Wire.lean ====
section
/-! DEFINITION. The wire frame: its encoder (spec/30_encoding.md R77) and the views of a Message (R62, R68). -/

namespace Sys2Proof.Machine

/-- `encode(h, p)` of R77: sync word, header, big-endian length `17 + k`, payload. -/
def encodeFrame (h p : List Byte) : List Byte :=
  Config.syncWord ++ h ++
    [BitVec.ofNat 8 ((17 + p.length) / 256), BitVec.ofNat 8 ((17 + p.length) % 256)] ++ p

/-- A header and a payload that a frame can carry (R77). -/
def Encodable (h p : List Byte) : Prop := h.length = 11 ∧ p.length ≤ 65518

/-- `sync = raw_bytes[0..3]` (R68). -/
def syncView (raw : List Byte) : List Byte := raw.take 4

/-- `header = raw_bytes[4..14]`, the output of the frame header parser (R68, R97). -/
def headerView (raw : List Byte) : List Byte := (raw.drop 4).take 11

/-- `length_field = raw_bytes[15..16]` (R68). -/
def lengthView (raw : List Byte) : List Byte := (raw.drop 15).take 2

/-- `payload = raw_bytes[17..]` (R68). -/
def payloadView (raw : List Byte) : List Byte := raw.drop 17

end Sys2Proof.Machine
end

