-- ==== Sys2Proof/Machine/Procedures.lean ====
section
/-! DEFINITION. The source's procedures as functions on the whole byte list (spec/30_encoding.md R76,
40_scanner.md R80, 41_frame_decoder.md R90, 42_control_fsm.md R105): what the block's byte-at-a-time steps
are held against. No step of the machine uses them. -/

namespace Sys2Proof.Machine

/-- A discard count as the SYNC event carries it: saturated at 2^64 - 1 (R24). -/
def skipOf (k : Nat) : SkipCount := BitVec.ofNat 64 (min k (2 ^ 64 - 1))

/-- `find_sync`: the leftmost sync word, as the number of bytes before it and the bytes after it (R80, R86). -/
def findSync : List Byte → Option (Nat × List Byte)
  | [] => none
  | b :: bs =>
    if (b :: bs).take 4 = Config.syncWord then some (0, (b :: bs).drop 4)
    else
      match findSync bs with
      | none => none
      | some (k, rest) => some (k + 1, rest)

/-- What `decode` returns, and what is left of the stream. -/
inductive Decoded where
  | ok (raw : List Byte) (totalSize : Word) (rest : List Byte)
  | malformed (rest : List Byte)
  | truncated
  deriving DecidableEq, Repr

/-- `decode` on the stream just past a sync word, with the source's block reads (R90, R99). -/
def decodeProc (bs : List Byte) : Decoded :=
  match bs.drop Config.sundry.headerLen with
  | hi :: lo :: pay =>
    let t := assembleTotalSize hi lo
    match remainingOf t with
    | none => .malformed pay
    | some n =>
      if pay.length < n then .truncated
      else .ok (Config.syncWord ++ bs.take 11 ++ [hi, lo] ++ pay.take n) t (pay.drop n)
  | _ => .truncated

/-- StreamDecodeLoop with its status events (R105), for at most `fuel` decode attempts. -/
def loopProc : Nat → List Byte → List Event
  | 0, _ => []
  | fuel + 1, bs =>
    match findSync bs with
    | none => [.exhausted]
    | some (k, rest) =>
      match decodeProc rest with
      | .ok raw t rest' => .sync (skipOf k) :: .msg raw t :: loopProc fuel rest'
      | .malformed rest' => .sync (skipOf k) :: .err .malformed :: loopProc fuel rest'
      | .truncated => [.sync (skipOf k), .err .truncated, .exhausted]

/-- The event list the source's loop reports for a stream: each attempt takes at least 17 bytes or ends the
stream, so one unit of fuel a byte and one more is enough. -/
def sourceRun (bs : List Byte) : List Event := loopProc (bs.length + 1) bs

/-- The four-state matcher of R85: the length of the longest suffix read that begins the sync word; none
is a match. -/
def matcherNext (p : Nat) (b : Byte) : Option Nat :=
  match p with
  | 0 => if b = 0xFA then some 1 else some 0
  | 1 => if b = 0xFA then some 2 else some 0
  | 2 => if b = 0xFA then some 2 else if b = 0xF0 then some 3 else some 0
  | _ => if b = 0xFA then some 1 else if b = 0xF0 then none else some 0

/-- The matcher over a byte list, from p; none once it has matched. -/
def matcherRun (p : Nat) : List Byte → Option Nat
  | [] => some p
  | b :: bs =>
    match matcherNext p b with
    | none => none
    | some q => matcherRun q bs

end Sys2Proof.Machine
end

