-- ==== Sys2Proof/Machine/Run.lean ====
section
/-! DEFINITION. Several steps, and the run of a session (spec/42_control_fsm.md R112). -/

namespace Sys2Proof.Machine

/-- `k` steps, stopping at the first fault or refusal. -/
def steps : Nat → State → StepResult
  | 0, s => .next s
  | k + 1, s =>
    match step s with
    | .next t => steps k t
    | .fault f => .fault f
    | .refused q => .refused q

/-- A session whose input is `bs` followed by end-of-stream: the reset state with the stream attached and
no reset scheduled inside it (R112, R142). -/
def session (bs : List Byte) : State := { State.reset with input := bs }

/-- Steps until `ST == Done`, at most `fuel` of them, with the number taken. -/
def toDone : Nat → State → Option (Nat × State)
  | 0, s => if s.st = .done then some (0, s) else none
  | fuel + 1, s =>
    if s.st = .done then some (0, s)
    else
      match step s with
      | .next t =>
        match toDone fuel t with
        | some (n, u) => some (n + 1, u)
        | none => none
      | .fault _ => none
      | .refused _ => none

/-- The session of `bs` run to Done: the number of steps and the final state; none if it is not Done after
`n + 2` steps or stops before (R112, R114). -/
def runState (bs : List Byte) : Option (Nat × State) := toDone (bs.length + 2) (session bs)

/-- `run(bs)` of R112: the event list of the session. -/
def run (bs : List Byte) : Option (List Event) :=
  match runState bs with
  | some (_, s) => some s.out
  | none => none

/-- `messages(bs)` of R112: `run(bs)` with only its MSG events kept (R10). -/
def messages (bs : List Byte) : Option (List Event) :=
  match run bs with
  | some es => some (es.filter fun e => match e with
    | .msg _ _ => true
    | .sync _ => false
    | .err _ => false
    | .exhausted => false)
  | none => none

end Sys2Proof.Machine
end

