-- ==== Sys2Proof/Safety.lean ====
section
/-! DEFINITION. The terms claims use: the invariants of spec/10_state.md R34, the Message invariants of
41_frame_decoder.md R101, and the shape and byte accounting of a run (42_control_fsm.md R113). -/

namespace Sys2Proof.Machine

/-- The cells below the list's length hold its bytes, in order. -/
def HoldsBytes (fb : List Host.Cell) (bs : List Byte) : Prop :=
  ∀ i, i < bs.length → fbCell fb i = bs[i]?

/-- I-1: CNT is 0 outside Decoding. -/
abbrev CntZeroOutside (s : State) : Prop := s.st ≠ .decoding → s.cnt.toNat = 0

/-- I-2: in Decoding CNT is in the fixed part of the frame, or below a legal TSIZE. -/
abbrev CntInFrame (s : State) : Prop :=
  s.st = .decoding → 4 ≤ s.cnt.toNat ∧
    (s.cnt.toNat ≤ 16 ∨ (17 ≤ s.tsize.toNat ∧ 17 ≤ s.cnt.toNat ∧ s.cnt.toNat < s.tsize.toNat))

/-- I-3: in Decoding FB[0..3] is the sync word. -/
abbrev SyncInBuffer (s : State) : Prop :=
  s.st = .decoding → fbCell s.fb 0 = some 0xFA ∧ fbCell s.fb 1 = some 0xFA ∧
    fbCell s.fb 2 = some 0xF0 ∧ fbCell s.fb 3 = some 0xF0

/-- R47: in Decoding every cell below CNT holds a byte. -/
abbrev WrittenBelowCnt (s : State) : Prop :=
  s.st = .decoding → ∀ i, i < s.cnt.toNat → (fbCell s.fb i).isSome = true

/-- I-4: once the length field is in, TSIZE is its big-endian value. -/
abbrev TsizeDecoded (s : State) : Prop :=
  s.st = .decoding → 17 ≤ s.cnt.toNat →
    (some s.tsize = match fbCell s.fb 15, fbCell s.fb 16 with
      | some hi, some lo => some (assembleTotalSize hi lo)
      | _, _ => none)

/-- I-6 as far as one state shows it: WCNT is at most 4, and nothing is discarded before the window is full. -/
abbrev WindowCounted (s : State) : Prop :=
  s.wcnt.toNat ≤ 4 ∧ (s.st.isScan = true → s.wcnt.toNat < 4 → s.skip.toNat = 0)

/-- I-7: a full window in a scan state is not the sync word. -/
abbrev WindowNotSync (s : State) : Prop :=
  s.st.isScan = true → s.wcnt.toNat = 4 → s.win.isSync = false

/-- I-8, as far as one state shows it: in Done the last event emitted was EXHAUSTED. -/
abbrev DoneAfterExhausted (s : State) : Prop :=
  s.st = .done → s.out.getLast? = some .exhausted

/-- The invariants of R34 that are about one state, and the canonical form of the frame buffer. -/
abbrev BlockInv (s : State) : Prop :=
  CntZeroOutside s ∧ CntInFrame s ∧ SyncInBuffer s ∧ WrittenBelowCnt s ∧ TsizeDecoded s ∧
    WindowCounted s ∧ WindowNotSync s ∧ DoneAfterExhausted s ∧ Memory.wf s.fb = true

/-- The invariants of a Message (R101): it begins with the sync word, `total_size` is its length and is at
least 17, and bytes 15 and 16 are `total_size` in big-endian. -/
abbrev MessageOk (raw : List Byte) (t : Word) : Prop :=
  syncView raw = Config.syncWord ∧ raw.length = t.toNat ∧ 17 ≤ t.toNat ∧
    ∃ hi ∈ raw[15]?, ∃ lo ∈ raw[16]?, t.toNat = 256 * hi.toNat + lo.toNat

/-- The grammar of a run (R113). -/
def RunShape : List Event → Prop
  | [.exhausted] => True
  | .sync _ :: .msg raw t :: es => MessageOk raw t ∧ RunShape es
  | .sync _ :: .err .malformed :: es => RunShape es
  | [.sync _, .err .truncated, .exhausted] => True
  | _ => False

/-- The input's bytes as a run accounts for them (R113): for each attempt the discarded bytes and then the
frame's bytes, and the bytes the last scan discarded. -/
def Accounts : List Event → List Byte → Prop
  | [.exhausted], _ => True
  | .sync k :: .msg raw t :: es, bs =>
    ∃ z rest, bs = z ++ raw ++ rest ∧ k = skipOf z.length ∧ MessageOk raw t ∧ Accounts es rest
  | .sync k :: .err .malformed :: es, bs =>
    ∃ z f rest, bs = z ++ f ++ rest ∧ k = skipOf z.length ∧ f.length = 17 ∧
      syncView f = Config.syncWord ∧ Accounts es rest
  | [.sync k, .err .truncated, .exhausted], bs =>
    ∃ z f, bs = z ++ f ∧ k = skipOf z.length ∧ 4 ≤ f.length ∧ syncView f = Config.syncWord
  | _, _ => False

/-- A scan is about to start: a scan state with an empty window and nothing discarded (R80). -/
def ScanStart (s : State) : Prop :=
  s.st.isScan = true ∧ s.wcnt.toNat = 0 ∧ s.skip.toNat = 0

/-- `h` is what the block has consumed since RESET: POS counts it, a scan's window holds its last WCNT bytes
(at most 4), and in Decoding FB[0..CNT-1] hold its last CNT bytes, in order (R22, I-5, I-9). -/
def HistoryInv (h : List Byte) (s : State) : Prop :=
  h.length = s.pos ∧
  (s.st.isScan = true → s.wcnt.toNat ≤ h.length ∧
    ∀ k : Fin 4, k.val < s.wcnt.toNat → ∃ b, s.readW k = .ok b ∧ h[h.length - 1 - k.val]? = some b) ∧
  (s.st = .decoding → s.cnt.toNat ≤ h.length ∧
    ∀ i, i < s.cnt.toNat → fbCell s.fb i = h[h.length - s.cnt.toNat + i]?)

/-- The bytes of the window that belong to the scan, oldest first (R22, R23). -/
def scanWindow (s : State) : List Byte :=
  [s.win.w0, s.win.w1, s.win.w2, s.win.w3].drop (4 - s.wcnt.toNat)

/-- p is the length of the longest suffix of the scan's bytes that is a prefix of the sync word, a whole
match apart (R85). -/
def MatcherAgrees (p : Nat) (s : State) : Prop :=
  p ≤ 3 ∧ Config.syncWord.take p <:+ scanWindow s ∧
    ∀ q, q ≤ 3 → Config.syncWord.take q <:+ scanWindow s → q ≤ p

/-- Two outcomes of the same kind, next states related, faults and refusals equal. -/
def SameOutcome (rel : State → State → Prop) (r q : StepResult) : Prop :=
  match r, q with
  | .next t, .next u => rel t u
  | .fault f, .fault g => f = g
  | .refused f, .refused g => f = g
  | _, _ => False

end Sys2Proof.Machine
end

