-- ==== Sys2Proof/Certificates/Slice0/Obligations.lean ====
section
/-! DEFINITION. The statements for the provers, each with the rule of spec/ it formalises or the sections it
rests on. -/

open Sys2Proof Sys2Proof.Machine

/-! ### Reset, symbols, the operation map -/

/-- R35: the value of every register right after RESET; no frame buffer cell holds a value. -/
def Obligations.ResetValues : Prop :=
  State.reset.st = .scanning ∧ State.reset.wcnt = 0 ∧ State.reset.win = ⟨0, 0, 0, 0⟩ ∧
    State.reset.skip = 0 ∧ State.reset.cnt = 0 ∧ State.reset.tsize = 0 ∧ State.reset.pos = 0 ∧
    State.reset.out = [] ∧ ∀ i, fbCell State.reset.fb i = none

/-- R61: bit 8 set is EOS whatever `data` holds, bit 8 clear is the byte `data`; all 512 patterns are legal
and the encoding of a symbol reads back as it. -/
def Obligations.SymbolFormatTotal : Prop :=
  (∀ w : SymbolWord, w.getLsbD 8 = true → symbolOf w = .eos) ∧
    (∀ w : SymbolWord, w.getLsbD 8 = false →
      ∃ b : Byte, symbolOf w = .byte b ∧ b.toNat = w.toNat ∧
        ∀ i, i < 8 → b.getLsbD i = w.getLsbD i) ∧
    (∀ y : Symbol, symbolOf y.word = y) ∧
    (∀ (r : Bool) (c : Ctx) (w v : SymbolWord), w.getLsbD 8 = true → v.getLsbD 8 = true →
      decode r c w = decode r c v)

/-- 30_encoding.md section 4: the operation map, row by row: the decoder answers an operation exactly when
that operation's row holds. The lower bound on CNT in the row of DEC.EOS, whose condition the map leaves
empty, is the derived sentence there that the combination of Decoding with CNT below 4 is refused. RESET is
answered exactly when the reset input is asserted. -/
def Obligations.OperationMapExact : Prop :=
  ∀ (r : Bool) (c : Ctx) (w : SymbolWord) (i : Instr),
    decode r c w = .ok i ↔
      match i with
      | .scanShift b => r = false ∧ (c.st = .scanning ∨ c.st = .recovering) ∧
          symbolOf w = .byte b ∧ matchAfter c.win c.wcnt b = false
      | .scanMatch b => r = false ∧ (c.st = .scanning ∨ c.st = .recovering) ∧
          symbolOf w = .byte b ∧ matchAfter c.win c.wcnt b = true
      | .scanEos => r = false ∧ (c.st = .scanning ∨ c.st = .recovering) ∧ symbolOf w = .eos
      | .hdrByte b => r = false ∧ c.st = .decoding ∧ symbolOf w = .byte b ∧
          4 ≤ c.cnt.toNat ∧ c.cnt.toNat ≤ 14
      | .lenHi b => r = false ∧ c.st = .decoding ∧ symbolOf w = .byte b ∧ c.cnt.toNat = 15
      | .lenLo b => r = false ∧ c.st = .decoding ∧ symbolOf w = .byte b ∧ c.cnt.toNat = 16
      | .payByte b => r = false ∧ c.st = .decoding ∧ symbolOf w = .byte b ∧ 17 ≤ c.cnt.toNat
      | .decEos => r = false ∧ c.st = .decoding ∧ symbolOf w = .eos ∧ 4 ≤ c.cnt.toNat
      | .doneHold => r = false ∧ c.st = .done
      | .reset => r = true

/-- 30_encoding.md section 4 (the derived sentence that the map is total and unambiguous): where I-2's lower
bound on CNT holds, some operation is selected; in Decoding below CNT 4 every symbol is refused. -/
def Obligations.OperationMapTotal : Prop :=
  (∀ (r : Bool) (c : Ctx) (w : SymbolWord), (c.st = .decoding → 4 ≤ c.cnt.toNat) →
    ∃ i, decode r c w = .ok i) ∧
  (∀ (c : Ctx) (w : SymbolWord), c.st = .decoding → c.cnt.toNat < 4 →
    decode false c w = .error .noRow)

/-- 30_encoding.md sections 1, 4 and 6: an operation's encoding decodes to it in every context in which its
row holds, operands included (Decoding with CNT below 4, where every symbol is refused, apart); and a
byte-format operation is decoded from its own encoding only. Writing the
ignored letters as zeros is the model's choice (log entry 12). -/
def Obligations.DecodeEncodeRoundTrip : Prop :=
  (∀ (i : Instr) (c : Ctx), i.wellFormed = true → i.row c = true → i ≠ .reset →
    (c.st = .decoding → 4 ≤ c.cnt.toNat) → decode false c (encode i) = .ok i) ∧
  (∀ (c : Ctx) (w : SymbolWord), decode true c w = .ok .reset) ∧
  (∀ (i : Instr) (c : Ctx) (w : SymbolWord), decode false c w = .ok i →
    i.wellFormed = true ∧ i.row c = true ∧ i ≠ .reset ∧ (i.format = .byteSymbol → w = encode i))

/-- 95_test_vectors.md V37 and the patterns of opcode_table.json: some words written out bit by bit decode
to the operations they stand for. -/
def Obligations.SpecWordsDecode : Prop :=
  decode false Ctx.afterReset 0b011111010 = .ok (.scanShift 0xFA) ∧
    decode false ⟨.scanning, 0, ⟨0, 0xFA, 0xFA, 0xF0⟩, 3⟩ 0b011110000 = .ok (.scanMatch 0xF0) ∧
    decode false ⟨.recovering, 0, ⟨0, 0, 0, 0⟩, 0⟩ 0b110100101 = .ok .scanEos ∧
    decode false ⟨.decoding, 4, ⟨0, 0, 0, 0⟩, 4⟩ 0b010100000 = .ok (.hdrByte 0xA0) ∧
    decode false ⟨.decoding, 15, ⟨0, 0, 0, 0⟩, 4⟩ 0b000000000 = .ok (.lenHi 0x00) ∧
    decode false ⟨.decoding, 16, ⟨0, 0, 0, 0⟩, 4⟩ 0b000011011 = .ok (.lenLo 0x1B) ∧
    decode false ⟨.decoding, 17, ⟨0, 0, 0, 0⟩, 4⟩ 0b000000001 = .ok (.payByte 0x01) ∧
    decode false ⟨.decoding, 9, ⟨0, 0, 0, 0⟩, 4⟩ 0b100000000 = .ok .decEos ∧
    decode false ⟨.done, 0, ⟨0, 0, 0, 0⟩, 0⟩ 0b001010101 = .ok .doneHold ∧
    decode true ⟨.decoding, 9, ⟨0, 0, 0, 0⟩, 4⟩ 0b001010101 = .ok .reset

/-- 42_control_fsm.md section 2 with the environment of log entries 1 and 2: a step performs the operation
the decoder selects, which is never refused, and then only the environment moves: a byte that was taken
leaves the stream, any other symbol stays, the reset schedule advances, and after RESET the next stream is
presented. -/
def Obligations.StepRunsSelected : Prop :=
  ∀ (s : State) (i : Instr), decode s.resetIn s.ctx s.presented.word = .ok i →
    (∀ f, exec i s = .fault f → step s = .fault f) ∧
    (∀ q, exec i s ≠ .refused q) ∧
    (∀ t, exec i s = .next t → ∃ u, step s = .next u ∧
      u = { t with input := u.input, plan := u.plan } ∧
      (i ≠ .reset → u.plan = tickPlan t.plan ∧
        u.input = if i.format = .byteSymbol then t.input.tail else t.input) ∧
      (i = .reset → ∀ p ps, t.plan = p :: ps → u.input = p.stream ∧ u.plan = ps))

/-- 30_encoding.md section 4 and 42_control_fsm.md section 2: the unreachable combination is a refusal of
the model, not a value, whatever is presented, a byte or EOS. -/
def Obligations.UnmappedStepRefused : Prop :=
  ∀ s : State, s.resetIn = false → s.st = .decoding → s.cnt.toNat < 4 → step s = .refused .noRow

/-- The model's choice (log entry 6): an operation executed where its row of the map does not hold is
refused. -/
def Obligations.OffRowRefused : Prop :=
  ∀ (i : Instr) (s : State), i.row s.ctx = false → exec i s = .refused .notSelected

/-! ### The scanner -/

/-- R81: the match test, and its two stated consequences. -/
def Obligations.MatchTestExact : Prop :=
  ∀ (w : Window) (n : FillCount) (b : Byte),
    (matchAfter w n b = true ↔
      min 4 (n.toNat + 1) = 4 ∧ w.w1 = 0xFA ∧ w.w2 = 0xFA ∧ w.w3 = 0xF0 ∧ b = 0xF0) ∧
    (b ≠ 0xF0 → matchAfter w n b = false) ∧
    (n.toNat < 3 → matchAfter w n b = false)

/-- R82: SCAN.SHIFT, its result and its frame. -/
def Obligations.ScanShiftEffect : Prop :=
  ∀ (b : Byte) (s : State), (s.st = .scanning ∨ s.st = .recovering) →
    matchAfter s.win s.wcnt b = false →
    ∃ (k : SkipCount) (n : FillCount),
      k.toNat = (if s.wcnt.toNat = 4 then min (s.skip.toNat + 1) (2 ^ 64 - 1) else s.skip.toNat) ∧
      n.toNat = min 4 (s.wcnt.toNat + 1) ∧
      exec (.scanShift b) s = .next { s with
        win := ⟨s.win.w1, s.win.w2, s.win.w3, b⟩
        wcnt := n
        skip := k
        pos := s.pos + 1 }

/-- R83: SCAN.MATCH, its result and its frame: only FB[0..3] are stored to. -/
def Obligations.ScanMatchEffect : Prop :=
  ∀ (b : Byte) (s : State), (s.st = .scanning ∨ s.st = .recovering) →
    matchAfter s.win s.wcnt b = true →
    ∃ (k : SkipCount) (fb' : List Host.Cell),
      k.toNat = (if s.wcnt.toNat = 4 then min (s.skip.toNat + 1) (2 ^ 64 - 1) else s.skip.toNat) ∧
      fbCell fb' 0 = some 0xFA ∧ fbCell fb' 1 = some 0xFA ∧
      fbCell fb' 2 = some 0xF0 ∧ fbCell fb' 3 = some 0xF0 ∧
      (∀ a, 4 ≤ a → fbCell fb' a = fbCell s.fb a) ∧
      (Memory.wf s.fb = true → Memory.wf fb' = true) ∧
      exec (.scanMatch b) s = .next { s with
        win := ⟨0xFA, 0xFA, 0xF0, 0xF0⟩
        wcnt := 4
        skip := k
        pos := s.pos + 1
        out := s.out ++ [.sync k]
        fb := fb'
        cnt := 4
        tsize := 0
        st := .decoding }

/-- R84: SCAN.EOS; no register but ST changes and no byte of the frame buffer. -/
def Obligations.ScanEosEffect : Prop :=
  ∀ s : State, (s.st = .scanning ∨ s.st = .recovering) →
    exec .scanEos s = .next { s with out := s.out ++ [.exhausted], st := .done }

/-! ### The frame decoder -/

/-- R91: HDR.BYTE; the stored byte is at FB[CNT]. -/
def Obligations.HdrByteEffect : Prop :=
  ∀ (b : Byte) (s : State), s.st = .decoding → 4 ≤ s.cnt.toNat → s.cnt.toNat ≤ 14 →
    ∃ fb' : List Host.Cell,
      (∀ a, fbCell fb' a = if a = s.cnt.toNat then some b else fbCell s.fb a) ∧
      (Memory.wf s.fb = true → Memory.wf fb' = true) ∧
      exec (.hdrByte b) s = .next { s with fb := fb', cnt := s.cnt + 1, pos := s.pos + 1 }

/-- R92: LEN.HI; the stored byte is at FB[15]. -/
def Obligations.LenHiEffect : Prop :=
  ∀ (b : Byte) (s : State), s.st = .decoding → s.cnt.toNat = 15 →
    ∃ fb' : List Host.Cell,
      (∀ a, fbCell fb' a = if a = 15 then some b else fbCell s.fb a) ∧
      (Memory.wf s.fb = true → Memory.wf fb' = true) ∧
      exec (.lenHi b) s = .next { s with fb := fb', cnt := 16, pos := s.pos + 1 }

/-- R93: LEN.LO; the stored byte is at FB[16]; `total_size` below 17 is Malformed, 17 completes the Message,
more goes on to the payload. The Message reads FB[0..15], so its clause asks that they hold bytes. -/
def Obligations.LenLoEffect : Prop :=
  ∀ (b hi : Byte) (s : State), s.st = .decoding → s.cnt.toNat = 16 → fbCell s.fb 15 = some hi →
    ∃ (fb' : List Host.Cell) (t : Word),
      (∀ a, fbCell fb' a = if a = 16 then some b else fbCell s.fb a) ∧
      (Memory.wf s.fb = true → Memory.wf fb' = true) ∧
      t.toNat = 256 * hi.toNat + b.toNat ∧
      (t.toNat < 17 → exec (.lenLo b) s = .next { s with
        fb := fb', tsize := t, pos := s.pos + 1
        out := s.out ++ [.err .malformed]
        st := .recovering, cnt := 0, wcnt := 0, skip := 0 }) ∧
      (t.toNat = 17 → ∀ front : List Byte, front.length = 16 → HoldsBytes s.fb front →
        exec (.lenLo b) s = .next { s with
          fb := fb', tsize := t, pos := s.pos + 1
          out := s.out ++ [.msg (front ++ [b]) 17]
          st := .scanning, cnt := 0, wcnt := 0, skip := 0 }) ∧
      (17 < t.toNat → exec (.lenLo b) s = .next { s with
        fb := fb', tsize := t, pos := s.pos + 1, cnt := 17 })

/-- R94: PAY.BYTE; the stored byte is at FB[CNT]; the frame's last byte completes the Message. `CNT < TSIZE`
is the rule's own reading of I-2. -/
def Obligations.PayByteEffect : Prop :=
  ∀ (b : Byte) (s : State), s.st = .decoding → 17 ≤ s.cnt.toNat → s.cnt.toNat < s.tsize.toNat →
    ∃ fb' : List Host.Cell,
      (∀ a, fbCell fb' a = if a = s.cnt.toNat then some b else fbCell s.fb a) ∧
      (Memory.wf s.fb = true → Memory.wf fb' = true) ∧
      (s.cnt.toNat + 1 = s.tsize.toNat → ∀ front : List Byte, front.length = s.cnt.toNat →
        HoldsBytes s.fb front →
        exec (.payByte b) s = .next { s with
          fb := fb', pos := s.pos + 1
          out := s.out ++ [.msg (front ++ [b]) s.tsize]
          st := .scanning, cnt := 0, wcnt := 0, skip := 0 }) ∧
      (s.cnt.toNat + 1 ≠ s.tsize.toNat → exec (.payByte b) s = .next { s with
        fb := fb', pos := s.pos + 1, cnt := s.cnt + 1 })

/-- R95: DEC.EOS raises Truncated, always; nothing is consumed and no byte of the frame buffer changes. -/
def Obligations.DecEosEffect : Prop :=
  ∀ s : State, s.st = .decoding →
    exec .decEos s = .next { s with
      out := s.out ++ [.err .truncated], st := .recovering, cnt := 0, wcnt := 0, skip := 0 }

/-! ### Control, failure entry, codes -/

/-- 42_control_fsm.md section 1: DONE.HOLD changes nothing and emits nothing; that it is a step, the identity,
is the model's choice of the two the rule allows (log entry 10). A step in Done takes no symbol (only the
reset schedule of log entry 2 advances). -/
def Obligations.DoneHoldEffect : Prop :=
  ∀ s : State, s.st = .done →
    exec .doneHold s = .next s ∧
    (s.resetIn = false → step s = .next { s with plan := tickPlan s.plan })

/-- R108: RESET writes the reset values in any state; FB is not written, no event is emitted, no symbol is
taken; with the reset input asserted it is the operation whatever the symbol. -/
def Obligations.ResetEffect : Prop :=
  ∀ s : State, exec .reset s = .next { s with
      st := .scanning, wcnt := 0, win := ⟨0, 0, 0, 0⟩, skip := 0, cnt := 0, tsize := 0, pos := 0 } ∧
    ∀ (c : Ctx) (w : SymbolWord), decode true c w = .ok .reset

/-- R126: the failure entry of each kind, from any state. -/
def Obligations.FailureEntryEffect : Prop :=
  ∀ (s : State) (k : FailureKind), s.raise k = { s with
    out := s.out ++ [.err k], st := .recovering, cnt := 0, wcnt := 0, skip := 0 }

/-- R64: `total_size` is the big-endian value of its two bytes, unsigned, 0 to 65535. -/
def Obligations.TotalSizeBigEndian : Prop :=
  ∀ hi lo : Byte, (assembleTotalSize hi lo).toNat = 256 * hi.toNat + lo.toNat ∧
    (assembleTotalSize hi lo).toNat ≤ 65535

/-- 30_encoding.md section 2: the payload length is formed only after the range check, and is 0 to 65518. -/
def Obligations.RemainingAfterCheck : Prop :=
  ∀ t : Word, (t.toNat < 17 → remainingOf t = none) ∧
    (17 ≤ t.toNat → ∃ n, remainingOf t = some n ∧ n + 17 = t.toNat ∧ n ≤ 65518)

/-- R67: the codes of the status channel; MSG has none; only SYNC has a count; an ERR's code is its cause
code. -/
def Obligations.StatusCodes : Prop :=
  (∀ k, statusOf (.sync k) = some (0, some k)) ∧
    statusOf (.err .truncated) = some (1, none) ∧
    statusOf (.err .malformed) = some (2, none) ∧
    statusOf .exhausted = some (3, none) ∧
    (∀ raw t, statusOf (.msg raw t) = none) ∧
    ∀ k, statusOf (.err k) = some (causeCode k, none)

/-! ### Reads and writes -/

/-- 10_state.md section 5 (the derived table of where a register is meaningful) and 20_memory.md section 2:
a read where there is no meaning is a fault of the model, and elsewhere gives the register's value. -/
def Obligations.MeaninglessReadsFault : Prop :=
  ∀ s : State,
    (∀ i, s.readFb i = if s.st = .decoding ∧ i < s.cnt.toNat then
        (match fbCell s.fb i with
          | some b => .ok b
          | none => .error (.unwrittenCell i))
      else .error (.unwrittenCell i)) ∧
    (∀ k : Fin 4, ¬ ((s.st = .scanning ∨ s.st = .recovering) ∧ k.val < s.wcnt.toNat) →
      s.readW k = .error (.meaningless (.w k))) ∧
    ((s.st = .scanning ∨ s.st = .recovering) →
      (1 ≤ s.wcnt.toNat → s.readW 0 = .ok s.win.w3) ∧
      (2 ≤ s.wcnt.toNat → s.readW 1 = .ok s.win.w2) ∧
      (3 ≤ s.wcnt.toNat → s.readW 2 = .ok s.win.w1) ∧
      (4 ≤ s.wcnt.toNat → s.readW 3 = .ok s.win.w0) ∧
      s.readWcnt = .ok s.wcnt ∧ s.readSkip = .ok s.skip) ∧
    (¬ (s.st = .scanning ∨ s.st = .recovering) →
      s.readWcnt = .error (.meaningless .wcnt) ∧ s.readSkip = .error (.meaningless .skip)) ∧
    (s.readTsize = if s.st = .decoding ∧ 17 ≤ s.cnt.toNat then .ok s.tsize
      else .error (.meaningless .tsize))

/-- 20_memory.md sections 2 and 3: a one-byte write to an index below 65535 changes that cell alone and no
register, and keeps the canonical form; a read of n cells gives the latest bytes written, in order. That a
write at 65535 or above faults is the model's choice (log entry 8): the spec says only that there is no such
cell and that the bound cannot be exceeded. -/
def Obligations.FrameBufferWriteRead : Prop :=
  (∀ (s : State) (i : Nat) (b : Byte), i < 65535 → ∃ fb' : List Host.Cell,
    s.memWrite i b = .ok { s with fb := fb' } ∧
    (∀ a, fbCell fb' a = if a = i then some b else fbCell s.fb a) ∧
    (Memory.wf s.fb = true → Memory.wf fb' = true)) ∧
  (∀ (s : State) (i : Nat) (b : Byte), 65535 ≤ i → s.memWrite i b = .error (.noSuchCell i)) ∧
  (∀ (s : State) (bs : List Byte), s.st = .decoding → bs.length ≤ s.cnt.toNat →
    HoldsBytes s.fb bs → s.memRead 0 bs.length = .ok bs)

/-! ### Invariants over every step -/

/-- The invariants of 10_state.md section 4 hold right after RESET, whatever stream is attached and whatever
resets are scheduled (log entries 1, 2). -/
def Obligations.InvAtReset : Prop :=
  BlockInv State.reset ∧ ∀ (bs : List Byte) (ps : List ResetPlan),
    BlockInv { State.reset with input := bs, plan := ps }

/-- 10_state.md section 4: every step keeps the invariants I-1 to I-4, I-7, I-8, the bound on WCNT, that every
cell below CNT is written, and the frame buffer's canonical form. -/
def Obligations.InvKeptByEveryStep : Prop :=
  ∀ s t : State, BlockInv s → step s = .next t → BlockInv t

/-- 42_control_fsm.md section 2: where the invariants hold, a step never faults and never refuses. -/
def Obligations.InvNeverStops : Prop :=
  ∀ s : State, BlockInv s → ∃ t, step s = .next t

/-- 42_control_fsm.md section 2 and 70_reset_and_hazards.md section 2: no stream and no schedule of resets
(log entries 1, 2) ever makes the block stop: from RESET any number of steps answers a next state with
the invariants. Steps taken in Done are the model's choice (log entry 10). -/
def Obligations.NoEnvironmentStops : Prop :=
  ∀ (bs : List Byte) (ps : List ResetPlan) (k : Nat),
    ∃ t, steps k { State.reset with input := bs, plan := ps } = .next t ∧ BlockInv t

/-- 60_exceptions.md section 2 and 20_memory.md section 1: a step appends at most one event and withdraws
none. -/
def Obligations.OneEventPerStep : Prop :=
  ∀ s t : State, step s = .next t → t.out = s.out ∨ ∃ e, t.out = s.out ++ [e]

/-- 41_frame_decoder.md section 3: every Message a step emits satisfies the Message invariants, and is the
frame buffer's content with the byte just consumed. -/
def Obligations.MessagesWellFormed : Prop :=
  ∀ (s t : State) (raw : List Byte) (n : Word), BlockInv s → step s = .next t →
    t.out = s.out ++ [.msg raw n] →
    MessageOk raw n ∧ HoldsBytes t.fb raw ∧ raw.length = s.cnt.toNat + 1 ∧
      (headerView raw).length = 11 ∧ (payloadView raw).length + 17 = n.toNat ∧
      raw[s.cnt.toNat]? = s.input.head?

/-- 10_state.md section 3 and 20_memory.md section 1: without RESET a step consumes at most the next byte of
the stream, never gives one back, and POS counts exactly the bytes consumed. -/
def Obligations.BytesConsumedOnce : Prop :=
  ∀ s t : State, s.resetIn = false → step s = .next t →
    ∃ taken, s.input = taken ++ t.input ∧ taken.length ≤ 1 ∧ t.pos = s.pos + taken.length

/-- 42_control_fsm.md section 3: outside Done every step consumes a byte, or, at the end of the stream, moves
from Decoding to Recovering or from a scan state to Done. -/
def Obligations.EveryStepProgresses : Prop :=
  ∀ s : State, BlockInv s → s.resetIn = false → s.st ≠ .done → ∃ t, step s = .next t ∧
    ((∃ b, s.input = b :: t.input) ∨
      (s.input = [] ∧ t.input = [] ∧
        ((s.st = .decoding ∧ t.st = .recovering) ∨
          ((s.st = .scanning ∨ s.st = .recovering) ∧ t.st = .done))))

/-- R105: the transition table: every step is one of its rows: with that row's state before, symbol and
condition come that row's next control state and events. -/
def Obligations.TransitionTable : Prop :=
  ∀ s t : State, step s = .next t → ∃ i, s.fetch = .ok i ∧
    match i with
    | .scanShift b => (s.st = .scanning ∨ s.st = .recovering) ∧ s.presented = .byte b ∧
        matchAfter s.win s.wcnt b = false ∧ t.st = s.st ∧ t.out = s.out
    | .scanMatch b => (s.st = .scanning ∨ s.st = .recovering) ∧ s.presented = .byte b ∧
        matchAfter s.win s.wcnt b = true ∧ t.st = .decoding ∧ t.out = s.out ++ [.sync t.skip]
    | .scanEos => (s.st = .scanning ∨ s.st = .recovering) ∧ s.presented = .eos ∧
        t.st = .done ∧ t.out = s.out ++ [.exhausted]
    | .hdrByte b => s.st = .decoding ∧ s.presented = .byte b ∧ 4 ≤ s.cnt.toNat ∧ s.cnt.toNat ≤ 14 ∧
        t.st = .decoding ∧ t.out = s.out
    | .lenHi b => s.st = .decoding ∧ s.presented = .byte b ∧ s.cnt.toNat = 15 ∧
        t.st = .decoding ∧ t.out = s.out
    | .lenLo b => s.st = .decoding ∧ s.presented = .byte b ∧ s.cnt.toNat = 16 ∧
        ∃ hi, fbCell s.fb 15 = some hi ∧
          (256 * hi.toNat + b.toNat < 17 → t.st = .recovering ∧ t.out = s.out ++ [.err .malformed]) ∧
          (256 * hi.toNat + b.toNat = 17 → t.st = .scanning ∧
            ∃ raw, t.out = s.out ++ [.msg raw 17]) ∧
          (17 < 256 * hi.toNat + b.toNat → t.st = .decoding ∧ t.out = s.out)
    | .payByte b => s.st = .decoding ∧ s.presented = .byte b ∧ 17 ≤ s.cnt.toNat ∧
        (s.cnt.toNat + 1 < s.tsize.toNat → t.st = .decoding ∧ t.out = s.out) ∧
        (s.cnt.toNat + 1 = s.tsize.toNat → t.st = .scanning ∧
          ∃ raw, t.out = s.out ++ [.msg raw s.tsize])
    | .decEos => s.st = .decoding ∧ s.presented = .eos ∧
        t.st = .recovering ∧ t.out = s.out ++ [.err .truncated]
    | .doneHold => s.st = .done ∧ t.st = .done ∧ t.out = s.out
    | .reset => s.resetIn = true ∧ t.st = .scanning ∧ t.out = s.out

/-- R121: the codes, when exactly each event of the status channel is raised, and what is recorded with
it. -/
def Obligations.CauseTable : Prop :=
  (causeCode .truncated = 1 ∧ causeCode .malformed = 2 ∧ statusOf .exhausted = some (3, none) ∧
    ∀ k, statusOf (.sync k) = some (0, some k)) ∧
  ∀ s t : State, step s = .next t →
    (t.out = s.out ++ [.err .truncated] ↔
      s.resetIn = false ∧ s.st = .decoding ∧ s.presented = .eos) ∧
    (t.out = s.out ++ [.err .malformed] ↔
      s.resetIn = false ∧ s.st = .decoding ∧ s.cnt.toNat = 16 ∧ ∃ hi b : Byte,
        s.presented = .byte b ∧ fbCell s.fb 15 = some hi ∧ 256 * hi.toNat + b.toNat < 17 ∧
        t.tsize.toNat = 256 * hi.toNat + b.toNat) ∧
    (t.out = s.out ++ [.exhausted] ↔
      s.resetIn = false ∧ (s.st = .scanning ∨ s.st = .recovering) ∧ s.presented = .eos) ∧
    ((∃ k, t.out = s.out ++ [.sync k]) ↔
      s.resetIn = false ∧ (s.st = .scanning ∨ s.st = .recovering) ∧ ∃ b : Byte,
        s.presented = .byte b ∧ matchAfter s.win s.wcnt b = true)

/-- 42_control_fsm.md section 1: an operation does in Recovering what it does in Scanning: the outcomes
differ at most in a control state that is kept. -/
def Obligations.RecoveringScansAlike : Prop :=
  ∀ (i : Instr) (s : State), s.st = .scanning →
    SameOutcome (fun t u => u = { t with st := u.st } ∧
        (u.st = t.st ∨ (t.st = .scanning ∧ u.st = .recovering)))
      (exec i s) (exec i { s with st := .recovering })

/-- 41_frame_decoder.md section 3: in Decoding no operation but RESET depends on W, WCNT or SKIP; W is not
written, and WCNT and SKIP are either kept or, at the end of the attempt, cleared. -/
def Obligations.DecoderIgnoresScanner : Prop :=
  ∀ (i : Instr) (s : State) (w : Window) (n : FillCount) (k : SkipCount),
    s.st = .decoding → i ≠ .reset →
    SameOutcome (fun t u => u = { t with win := w, wcnt := u.wcnt, skip := u.skip } ∧ t.win = s.win ∧
        ((t.st = .decoding ∧ t.wcnt = s.wcnt ∧ t.skip = s.skip ∧ u.wcnt = n ∧ u.skip = k) ∨
          (t.st ≠ .decoding ∧ t.wcnt = 0 ∧ t.skip = 0 ∧ u.wcnt = 0 ∧ u.skip = 0)))
      (exec i s) (exec i { s with win := w, wcnt := n, skip := k })

/-- 41_frame_decoder.md section 3: in a scan state no operation but RESET depends on FB, CNT or TSIZE, and
they are kept until SCAN.MATCH gives CNT and TSIZE their starting values and writes FB[0..3]. -/
def Obligations.ScannerIgnoresFrame : Prop :=
  ∀ (i : Instr) (s : State) (fb : List Host.Cell) (c z : Word),
    (s.st = .scanning ∨ s.st = .recovering) → i ≠ .reset →
    SameOutcome (fun t u => u = { t with fb := u.fb, cnt := u.cnt, tsize := u.tsize } ∧
        ((t.st = .decoding ∧ t.cnt = 4 ∧ t.tsize = 0 ∧ u.cnt = 4 ∧ u.tsize = 0 ∧
            ∀ a, a < 4 → fbCell u.fb a = fbCell t.fb a) ∨
          (t.st ≠ .decoding ∧ t.fb = s.fb ∧ t.cnt = s.cnt ∧ t.tsize = s.tsize ∧
            u.fb = fb ∧ u.cnt = c ∧ u.tsize = z)))
      (exec i s) (exec i { s with fb := fb, cnt := c, tsize := z })

/-- 42_control_fsm.md section 1 and log entry 2: when the reset input is asserted the step is RESET whatever
symbol is presented and whatever state the block is in; the events already emitted and the frame buffer stay,
and the next session's stream is presented from its first byte. -/
def Obligations.ResetOverridesSymbol : Prop :=
  ∀ (s : State) (p : ResetPlan) (ps : List ResetPlan), s.plan = p :: ps → p.after = 0 →
    step s = .next { State.reset with fb := s.fb, out := s.out, input := p.stream, plan := ps }

/-- 42_control_fsm.md sections 1 and 3: Done is absorbing: with no reset scheduled, any number of steps leaves
the whole state as it is, whatever is presented. That there are steps in Done to count is the model's choice
of the identity reading (log entry 10). -/
def Obligations.DoneHoldsForever : Prop :=
  ∀ (s : State) (k : Nat), s.st = .done → s.plan = [] → steps k s = .next s

/-! ### Scans -/

/-- 10_state.md section 2 and I-6: a scan over n bytes that hold no sync word leaves the last bytes in the
window, WCNT = min(4, n), SKIP = max(0, n - 4) up to saturation, POS n further, and nothing else changed. -/
def Obligations.ScanCounters : Prop :=
  ∀ (s : State) (bs rest : List Byte), ScanStart s → s.plan = [] → s.input = bs ++ rest →
    ¬ Config.syncWord <:+: bs →
    ∃ t, steps bs.length s = .next t ∧
      t = { s with win := t.win, wcnt := t.wcnt, skip := t.skip, pos := s.pos + bs.length, input := rest } ∧
      t.wcnt.toNat = min 4 bs.length ∧
      t.skip.toNat = min (bs.length - 4) (2 ^ 64 - 1) ∧
      ∀ k : Fin 4, k.val < bs.length → ∃ b, bs[bs.length - 1 - k.val]? = some b ∧ t.readW k = .ok b

/-- 40_scanner.md sections 1 and 3: a scan over z, a sync word and rest, with no earlier sync word, takes
exactly the bytes up to the sync word's end, reports the length of z, and enters Decoding; a scan over a
stream with no sync word ends in Done with EXHAUSTED alone. -/
def Obligations.ScanFindsLeftmostSync : Prop :=
  (∀ (s : State) (z rest : List Byte), ScanStart s → s.plan = [] →
    s.input = z ++ Config.syncWord ++ rest → ¬ Config.syncWord <:+: z ++ Config.syncWord.take 3 →
    ∃ t, steps (z.length + 4) s = .next t ∧ t.st = .decoding ∧ t.cnt = 4 ∧ t.input = rest ∧
      t.pos = s.pos + z.length + 4 ∧ t.out = s.out ++ [.sync (skipOf z.length)]) ∧
  (∀ (s : State), ScanStart s → s.plan = [] → ¬ Config.syncWord <:+: s.input →
    ∃ t, steps (s.input.length + 1) s = .next t ∧ t.st = .done ∧ t.input = [] ∧
      t.pos = s.pos + s.input.length ∧ t.out = s.out ++ [.exhausted])

/-- 40_scanner.md section 3: the window scanner and the four-state matcher agree: after bytes on which the
matcher has reached p, the block has not matched, and for each next byte it matches exactly when the matcher
does. -/
def Obligations.MatcherEquivalent : Prop :=
  ∀ (s : State) (bs rest : List Byte) (p : Nat), ScanStart s → s.plan = [] → s.input = bs ++ rest →
    matcherRun 0 bs = some p →
    ∃ t, steps bs.length s = .next t ∧ t.st = s.st ∧ t.input = rest ∧
      ∀ b, matchAfter t.win t.wcnt b = true ↔ matcherNext p b = none

/-- I-5 of 10_state.md section 4: whenever a session is in Decoding, FB[0..CNT-1] are the CNT most recently
consumed bytes of its input, in order. That a session answers next states after Done too is the model's
choice (log entry 10). -/
def Obligations.FrameBufferHoldsInput : Prop :=
  ∀ (bs : List Byte) (k : Nat), ∃ t, steps k (session bs) = .next t ∧ t.pos ≤ bs.length ∧
    (t.st = .decoding → t.cnt.toNat ≤ t.pos ∧
      ∀ i, i < t.cnt.toNat → fbCell t.fb i = bs[t.pos - t.cnt.toNat + i]?)

/-! ### Runs -/

/-- R112: the run over n bytes reaches Done with CNT 0 and POS n, in n + 1 steps when the end of the stream
is first seen in a scan state and n + 2 when it is first seen in Decoding. -/
def Obligations.RunEndsInDone : Prop :=
  ∀ bs : List Byte, ∃ m k s, steps bs.length (session bs) = .next m ∧ m.st ≠ .done ∧ m.input = [] ∧
    runState bs = some (k, s) ∧ (k = if m.st = .decoding then bs.length + 2 else bs.length + 1) ∧
    s.st = .done ∧ s.cnt = 0 ∧ s.pos = bs.length ∧ s.input = []

/-- 30_encoding.md section 6 and 42_control_fsm.md section 1: on every stream the block's byte-at-a-time steps
report exactly what the source's procedures (scan, block reads, loop) report. -/
def Obligations.RunRefinesSourceLoop : Prop :=
  ∀ bs : List Byte, run bs = some (sourceRun bs)

/-- 42_control_fsm.md section 2: every run has the shape of the grammar, and its events partition the input
into discarded bytes and frames. -/
def Obligations.RunAccountsForInput : Prop :=
  ∀ bs : List Byte, ∃ es, run bs = some es ∧ RunShape es ∧ Accounts es bs

/-- 42_control_fsm.md section 2: every event list of that shape is the run of some input. -/
def Obligations.EveryShapeIsARun : Prop :=
  ∀ es : List Event, RunShape es → ∃ bs, run bs = some es

/-- 30_encoding.md section 6: encoding a Message's fields and decoding the result yields an equal Message. -/
def Obligations.EncodedFrameRoundTrip : Prop :=
  ∀ h p : List Byte, Encodable h p → ∃ t : Word, t.toNat = 17 + p.length ∧
    run (encodeFrame h p) = some [.sync 0, .msg (encodeFrame h p) t, .exhausted] ∧
    headerView (encodeFrame h p) = h ∧ payloadView (encodeFrame h p) = p

/-- 42_control_fsm.md section 3, P1: N back-to-back frames yield exactly N Messages, each after a SYNC(0). -/
def Obligations.BackToBackFrames : Prop :=
  ∀ fs : List (List Byte × List Byte), (∀ f ∈ fs, Encodable f.1 f.2) →
    run (fs.flatMap fun f => encodeFrame f.1 f.2) =
      some ((fs.flatMap fun f =>
        [.sync 0, .msg (encodeFrame f.1 f.2) (BitVec.ofNat 16 (17 + f.2.length))]) ++ [.exhausted])

/-- 42_control_fsm.md section 3, P3: noise before a frame does not hide it, and its length is the skip
count. -/
def Obligations.NoiseTolerated : Prop :=
  ∀ z h p : List Byte, Encodable h p → ¬ Config.syncWord <:+: z ++ [0xFA, 0xFA, 0xF0] →
    run (z ++ encodeFrame h p) = some [.sync (skipOf z.length),
      .msg (encodeFrame h p) (BitVec.ofNat 16 (17 + p.length)), .exhausted]

/-- 42_control_fsm.md section 3, P4: a frame cut short by the end of the stream yields Truncated and then
clean termination; fewer than 4 bytes begin no frame. -/
def Obligations.TruncationReported : Prop :=
  ∀ h p g : List Byte, Encodable h p → g <+: encodeFrame h p → g.length < 17 + p.length →
    (4 ≤ g.length → run g = some [.sync 0, .err .truncated, .exhausted]) ∧
    (g.length < 4 → run g = some [.exhausted])

/-- 42_control_fsm.md section 3, P5: a length field below 17 yields Malformed, and the scan goes on with the
byte after it. -/
def Obligations.MalformedLengthRecovered : Prop :=
  ∀ (h r : List Byte) (lo : Byte), h.length = 11 → lo.toNat < 17 → ∃ es, run r = some es ∧
    run (Config.syncWord ++ h ++ [0, lo] ++ r) = some ([.sync 0, .err .malformed] ++ es)

/-- 42_control_fsm.md section 3 and 20_memory.md section 3: the events while consuming a are the same whatever
follows, and are the run of a without its end-of-stream events. -/
def Obligations.EventsAreCausal : Prop :=
  ∀ a b : List Byte, ∃ t u tail, steps a.length (session a) = .next t ∧
    steps a.length (session (a ++ b)) = .next u ∧ u.out = t.out ∧
    run a = some (t.out ++ tail) ∧ (tail = [.exhausted] ∨ tail = [.err .truncated, .exhausted])

/-- 42_control_fsm.md section 3: a session has no memory of an earlier one: from the reset registers with any
leftover frame buffer and any events already emitted, the events added are those of a first session. -/
def Obligations.SessionsIndependent : Prop :=
  ∀ (bs : List Byte) (fb : List Host.Cell) (es : List Event), ∃ n u new, run bs = some new ∧
    toDone (bs.length + 2) { session bs with fb := fb, out := es } = some (n, u) ∧ u.out = es ++ new

/-! ### Step lemmas over a history -/

/-- I-5 and I-9 of 10_state.md section 4 and the window's contents of section 2, as a step lemma: if h is
what the block has consumed since RESET, of which a scan's window and an attempt's frame buffer hold the last
bytes, then after a step it is h with the byte taken, and after RESET it is empty. -/
def Obligations.HistoryKeptByEveryStep : Prop :=
  ∀ (s t : State) (h : List Byte), HistoryInv h s → step s = .next t →
    (s.resetIn = false → ∃ taken, s.input = taken ++ t.input ∧ HistoryInv (h ++ taken) t) ∧
    (s.resetIn = true → HistoryInv [] t)

/-- 40_scanner.md section 3, as a step lemma: in a scan state whose window the matcher state p describes,
the next byte completes a match exactly when the matcher matches on it, and after a SCAN.SHIFT the matcher's
next state describes the window. -/
def Obligations.MatcherKeptByScanShift : Prop :=
  ∀ (s : State) (p : Nat) (b : Byte), s.st.isScan = true → MatcherAgrees p s →
    (matchAfter s.win s.wcnt b = true ↔ matcherNext p b = none) ∧
    (∀ t, exec (.scanShift b) s = .next t → ∃ q, matcherNext p b = some q ∧ MatcherAgrees q t)
end

