-- ==== Sys2Proof/Laws/Config.lean ====
section
/-! SUPPORT. The values of the parameters (spec/00_scope.md R6, R7), one simp lemma each, and the arithmetic
that ties them together. -/

namespace Sys2Proof

@[simp] theorem Config.sundry_sync0 : Config.sundry.sync0 = 0xFA := rfl
@[simp] theorem Config.sundry_sync1 : Config.sundry.sync1 = 0xFA := rfl
@[simp] theorem Config.sundry_sync2 : Config.sundry.sync2 = 0xF0 := rfl
@[simp] theorem Config.sundry_sync3 : Config.sundry.sync3 = 0xF0 := rfl
@[simp] theorem Config.sundry_syncLen : Config.sundry.syncLen = 4 := rfl
@[simp] theorem Config.sundry_headerLen : Config.sundry.headerLen = 11 := rfl
@[simp] theorem Config.sundry_lenFieldLen : Config.sundry.lenFieldLen = 2 := rfl
@[simp] theorem Config.sundry_totalHeaderSize : Config.sundry.totalHeaderSize = 17 := rfl
@[simp] theorem Config.sundry_hdrOff : Config.sundry.hdrOff = 4 := rfl
@[simp] theorem Config.sundry_lenOff : Config.sundry.lenOff = 15 := rfl
@[simp] theorem Config.sundry_payOff : Config.sundry.payOff = 17 := rfl
@[simp] theorem Config.sundry_tsizeW : Config.sundry.tsizeW = 16 := rfl
@[simp] theorem Config.sundry_maxFrame : Config.sundry.maxFrame = 65535 := rfl
@[simp] theorem Config.sundry_byteW : Config.sundry.byteW = 8 := rfl
@[simp] theorem Config.sundry_fbBytes : Config.sundry.fbBytes = 65535 := rfl
@[simp] theorem Config.sundry_skipW : Config.sundry.skipW = 64 := rfl
@[simp] theorem Config.sundry_symbolW : Config.sundry.symbolW = 9 := rfl
@[simp] theorem Config.sundry_frameBuffers : Config.sundry.frameBuffers = 1 := rfl

/-- The sync word in wire order (R6). -/
theorem Config.syncWord_eq : Config.syncWord = [0xFA, 0xFA, 0xF0, 0xF0] := rfl

@[simp] theorem Config.syncWord_length : Config.syncWord.length = 4 := rfl

/-- The offsets are the running sums of the sizes, and `TOTAL_HEADER_SIZE` is their sum (R6). -/
theorem Config.sizes_agree :
    Config.sundry.hdrOff = Config.sundry.syncLen ∧
      Config.sundry.lenOff = Config.sundry.hdrOff + Config.sundry.headerLen ∧
      Config.sundry.payOff = Config.sundry.lenOff + Config.sundry.lenFieldLen ∧
      Config.sundry.totalHeaderSize = Config.sundry.payOff ∧
      Config.sundry.maxFrame + 1 = 2 ^ Config.sundry.tsizeW ∧
      Config.sundry.fbBytes = Config.sundry.maxFrame := by
  decide

end Sys2Proof
end

