-- ==== Sys2Proof/Laws/Decode.lean ====
section
/-! SUPPORT. The rows of the operation map as propositions (spec/30_encoding.md R70), and the decoder in
Decoding. -/

namespace Sys2Proof

theorem row_scanShift {b : Byte} {c : Ctx} : (Instr.scanShift b).row c = true ↔
    c.st.isScan = true ∧ matchAfter c.win c.wcnt b = false := by
  simp only [Instr.row, Bool.and_eq_true, Bool.not_eq_true']

theorem row_scanMatch {b : Byte} {c : Ctx} : (Instr.scanMatch b).row c = true ↔
    c.st.isScan = true ∧ matchAfter c.win c.wcnt b = true := by
  simp only [Instr.row, Bool.and_eq_true]

theorem row_scanEos {c : Ctx} : Instr.scanEos.row c = true ↔ c.st.isScan = true := Iff.rfl

theorem row_hdrByte {b : Byte} {c : Ctx} : (Instr.hdrByte b).row c = true ↔
    c.st = .decoding ∧ 4 ≤ c.cnt.toNat ∧ c.cnt.toNat ≤ 14 := by
  simp only [Instr.row, Bool.and_eq_true, beq_iff_eq, decide_eq_true_eq, and_assoc]

theorem row_lenHi {b : Byte} {c : Ctx} : (Instr.lenHi b).row c = true ↔
    c.st = .decoding ∧ c.cnt.toNat = 15 := by
  simp only [Instr.row, Bool.and_eq_true, beq_iff_eq, decide_eq_true_eq]

theorem row_lenLo {b : Byte} {c : Ctx} : (Instr.lenLo b).row c = true ↔
    c.st = .decoding ∧ c.cnt.toNat = 16 := by
  simp only [Instr.row, Bool.and_eq_true, beq_iff_eq, decide_eq_true_eq]

theorem row_payByte {b : Byte} {c : Ctx} : (Instr.payByte b).row c = true ↔
    c.st = .decoding ∧ 17 ≤ c.cnt.toNat := by
  simp only [Instr.row, Bool.and_eq_true, beq_iff_eq, decide_eq_true_eq]

theorem row_decEos {c : Ctx} : Instr.decEos.row c = true ↔ c.st = .decoding := by
  simp only [Instr.row, beq_iff_eq]

theorem row_doneHold {c : Ctx} : Instr.doneHold.row c = true ↔ c.st = .done := by
  simp only [Instr.row, beq_iff_eq]

theorem row_reset {c : Ctx} : Instr.reset.row c = true := rfl

/-- The four ranges of a CNT of 4 or more (R70). -/
theorem decodeFrameByte_cases {n : Nat} (b : Byte) (h : 4 ≤ n) :
    (n ≤ 14 ∧ decodeFrameByte n b = .hdrByte b) ∨ (n = 15 ∧ decodeFrameByte n b = .lenHi b) ∨
      (n = 16 ∧ decodeFrameByte n b = .lenLo b) ∨ (17 ≤ n ∧ decodeFrameByte n b = .payByte b) := by
  have e : decodeFrameByte n b = if n < 15 then .hdrByte b else if n = 15 then .lenHi b
      else if n < 17 then .lenLo b else .payByte b := rfl
  rw [e]
  split_ifs
  · exact .inl ⟨by omega, rfl⟩
  · exact .inr (.inl ⟨by omega, rfl⟩)
  · exact .inr (.inr (.inl ⟨by omega, rfl⟩))
  · exact .inr (.inr (.inr ⟨by omega, rfl⟩))

/-- In Decoding below CNT 4 every symbol is refused (R71, R111). -/
theorem decodeInFrame_refused {n : Nat} (sym : Symbol) (h : n < 4) : decodeInFrame n sym = .error .noRow :=
  if_pos h

/-- EOS in Decoding from CNT 4 up (R70). -/
theorem decodeInFrame_eos {n : Nat} (h : 4 ≤ n) : decodeInFrame n .eos = .ok .decEos :=
  if_neg (Nat.not_lt.2 h)

/-- A byte in Decoding from CNT 4 up (R70). -/
theorem decodeInFrame_byte {n : Nat} (b : Byte) (h : 4 ≤ n) :
    decodeInFrame n (.byte b) = .ok (decodeFrameByte n b) :=
  if_neg (Nat.not_lt.2 h)

end Sys2Proof
end

