-- ==== Sys2Proof/Laws/State.lean ====
section
/-! SUPPORT. One lemma per field per update of the state, each true by rfl, so that no later proof unfolds an
update (spec/10_state.md R20 lists the fields; the updates are those of Machine/Ops.lean). -/

namespace Sys2Proof.Machine

@[simp] theorem State.shiftIn_st (s : State) (b : Byte) : (s.shiftIn b).st = s.st := rfl
@[simp] theorem State.shiftIn_win (s : State) (b : Byte) : (s.shiftIn b).win = s.win.shift b := rfl
@[simp] theorem State.shiftIn_wcnt (s : State) (b : Byte) : (s.shiftIn b).wcnt = fillNext s.wcnt := rfl
@[simp] theorem State.shiftIn_skip (s : State) (b : Byte) : (s.shiftIn b).skip = s.skip := rfl
@[simp] theorem State.shiftIn_cnt (s : State) (b : Byte) : (s.shiftIn b).cnt = s.cnt := rfl
@[simp] theorem State.shiftIn_tsize (s : State) (b : Byte) : (s.shiftIn b).tsize = s.tsize := rfl
@[simp] theorem State.shiftIn_fb (s : State) (b : Byte) : (s.shiftIn b).fb = s.fb := rfl
@[simp] theorem State.shiftIn_pos (s : State) (b : Byte) : (s.shiftIn b).pos = s.pos := rfl
@[simp] theorem State.shiftIn_input (s : State) (b : Byte) : (s.shiftIn b).input = s.input := rfl
@[simp] theorem State.shiftIn_plan (s : State) (b : Byte) : (s.shiftIn b).plan = s.plan := rfl
@[simp] theorem State.shiftIn_out (s : State) (b : Byte) : (s.shiftIn b).out = s.out := rfl

@[simp] theorem State.consumed_st (s : State) : (s.consumed).st = s.st := rfl
@[simp] theorem State.consumed_win (s : State) : (s.consumed).win = s.win := rfl
@[simp] theorem State.consumed_wcnt (s : State) : (s.consumed).wcnt = s.wcnt := rfl
@[simp] theorem State.consumed_skip (s : State) : (s.consumed).skip = s.skip := rfl
@[simp] theorem State.consumed_cnt (s : State) : (s.consumed).cnt = s.cnt := rfl
@[simp] theorem State.consumed_tsize (s : State) : (s.consumed).tsize = s.tsize := rfl
@[simp] theorem State.consumed_fb (s : State) : (s.consumed).fb = s.fb := rfl
@[simp] theorem State.consumed_pos (s : State) : (s.consumed).pos = s.pos + 1 := rfl
@[simp] theorem State.consumed_input (s : State) : (s.consumed).input = s.input := rfl
@[simp] theorem State.consumed_plan (s : State) : (s.consumed).plan = s.plan := rfl
@[simp] theorem State.consumed_out (s : State) : (s.consumed).out = s.out := rfl

@[simp] theorem State.emit_st (s : State) (e : Event) : (s.emit e).st = s.st := rfl
@[simp] theorem State.emit_win (s : State) (e : Event) : (s.emit e).win = s.win := rfl
@[simp] theorem State.emit_wcnt (s : State) (e : Event) : (s.emit e).wcnt = s.wcnt := rfl
@[simp] theorem State.emit_skip (s : State) (e : Event) : (s.emit e).skip = s.skip := rfl
@[simp] theorem State.emit_cnt (s : State) (e : Event) : (s.emit e).cnt = s.cnt := rfl
@[simp] theorem State.emit_tsize (s : State) (e : Event) : (s.emit e).tsize = s.tsize := rfl
@[simp] theorem State.emit_fb (s : State) (e : Event) : (s.emit e).fb = s.fb := rfl
@[simp] theorem State.emit_pos (s : State) (e : Event) : (s.emit e).pos = s.pos := rfl
@[simp] theorem State.emit_input (s : State) (e : Event) : (s.emit e).input = s.input := rfl
@[simp] theorem State.emit_plan (s : State) (e : Event) : (s.emit e).plan = s.plan := rfl
@[simp] theorem State.emit_out (s : State) (e : Event) : (s.emit e).out = s.out ++ [e] := rfl

@[simp] theorem State.clearForScan_st (s : State) : (s.clearForScan).st = s.st := rfl
@[simp] theorem State.clearForScan_win (s : State) : (s.clearForScan).win = s.win := rfl
@[simp] theorem State.clearForScan_wcnt (s : State) : (s.clearForScan).wcnt = 0 := rfl
@[simp] theorem State.clearForScan_skip (s : State) : (s.clearForScan).skip = 0 := rfl
@[simp] theorem State.clearForScan_cnt (s : State) : (s.clearForScan).cnt = 0 := rfl
@[simp] theorem State.clearForScan_tsize (s : State) : (s.clearForScan).tsize = s.tsize := rfl
@[simp] theorem State.clearForScan_fb (s : State) : (s.clearForScan).fb = s.fb := rfl
@[simp] theorem State.clearForScan_pos (s : State) : (s.clearForScan).pos = s.pos := rfl
@[simp] theorem State.clearForScan_input (s : State) : (s.clearForScan).input = s.input := rfl
@[simp] theorem State.clearForScan_plan (s : State) : (s.clearForScan).plan = s.plan := rfl
@[simp] theorem State.clearForScan_out (s : State) : (s.clearForScan).out = s.out := rfl

@[simp] theorem State.beginFrame_st (s : State) : (s.beginFrame).st = .decoding := rfl
@[simp] theorem State.beginFrame_win (s : State) : (s.beginFrame).win = s.win := rfl
@[simp] theorem State.beginFrame_wcnt (s : State) : (s.beginFrame).wcnt = s.wcnt := rfl
@[simp] theorem State.beginFrame_skip (s : State) : (s.beginFrame).skip = s.skip := rfl
@[simp] theorem State.beginFrame_cnt (s : State) : (s.beginFrame).cnt = 4 := rfl
@[simp] theorem State.beginFrame_tsize (s : State) : (s.beginFrame).tsize = 0 := rfl
@[simp] theorem State.beginFrame_fb (s : State) :
    (s.beginFrame).fb = fbPut (fbPut (fbPut (fbPut s.fb 0 Config.sundry.sync0) 1 Config.sundry.sync1)
      2 Config.sundry.sync2) 3 Config.sundry.sync3 := rfl
@[simp] theorem State.beginFrame_pos (s : State) : (s.beginFrame).pos = s.pos := rfl
@[simp] theorem State.beginFrame_input (s : State) : (s.beginFrame).input = s.input := rfl
@[simp] theorem State.beginFrame_plan (s : State) : (s.beginFrame).plan = s.plan := rfl
@[simp] theorem State.beginFrame_out (s : State) : (s.beginFrame).out = s.out := rfl

@[simp] theorem State.raise_st (s : State) (k : FailureKind) : (s.raise k).st = .recovering := rfl
@[simp] theorem State.raise_win (s : State) (k : FailureKind) : (s.raise k).win = s.win := rfl
@[simp] theorem State.raise_wcnt (s : State) (k : FailureKind) : (s.raise k).wcnt = 0 := rfl
@[simp] theorem State.raise_skip (s : State) (k : FailureKind) : (s.raise k).skip = 0 := rfl
@[simp] theorem State.raise_cnt (s : State) (k : FailureKind) : (s.raise k).cnt = 0 := rfl
@[simp] theorem State.raise_tsize (s : State) (k : FailureKind) : (s.raise k).tsize = s.tsize := rfl
@[simp] theorem State.raise_fb (s : State) (k : FailureKind) : (s.raise k).fb = s.fb := rfl
@[simp] theorem State.raise_pos (s : State) (k : FailureKind) : (s.raise k).pos = s.pos := rfl
@[simp] theorem State.raise_input (s : State) (k : FailureKind) : (s.raise k).input = s.input := rfl
@[simp] theorem State.raise_plan (s : State) (k : FailureKind) : (s.raise k).plan = s.plan := rfl
@[simp] theorem State.raise_out (s : State) (k : FailureKind) : (s.raise k).out = s.out ++ [.err k] := rfl

@[simp] theorem State.deliver_st (s : State) (raw : List Byte) (t : Word) : (s.deliver raw t).st = .scanning := rfl
@[simp] theorem State.deliver_win (s : State) (raw : List Byte) (t : Word) : (s.deliver raw t).win = s.win := rfl
@[simp] theorem State.deliver_wcnt (s : State) (raw : List Byte) (t : Word) : (s.deliver raw t).wcnt = 0 := rfl
@[simp] theorem State.deliver_skip (s : State) (raw : List Byte) (t : Word) : (s.deliver raw t).skip = 0 := rfl
@[simp] theorem State.deliver_cnt (s : State) (raw : List Byte) (t : Word) : (s.deliver raw t).cnt = 0 := rfl
@[simp] theorem State.deliver_tsize (s : State) (raw : List Byte) (t : Word) :
    (s.deliver raw t).tsize = s.tsize := rfl
@[simp] theorem State.deliver_fb (s : State) (raw : List Byte) (t : Word) : (s.deliver raw t).fb = s.fb := rfl
@[simp] theorem State.deliver_pos (s : State) (raw : List Byte) (t : Word) : (s.deliver raw t).pos = s.pos := rfl
@[simp] theorem State.deliver_input (s : State) (raw : List Byte) (t : Word) :
    (s.deliver raw t).input = s.input := rfl
@[simp] theorem State.deliver_plan (s : State) (raw : List Byte) (t : Word) : (s.deliver raw t).plan = s.plan := rfl
@[simp] theorem State.deliver_out (s : State) (raw : List Byte) (t : Word) :
    (s.deliver raw t).out = s.out ++ [.msg raw t] := rfl

/-! ### What selects an operation -/

@[simp] theorem State.ctx_st (s : State) : s.ctx.st = s.st := rfl
@[simp] theorem State.ctx_cnt (s : State) : s.ctx.cnt = s.cnt := rfl
@[simp] theorem State.ctx_win (s : State) : s.ctx.win = s.win := rfl
@[simp] theorem State.ctx_wcnt (s : State) : s.ctx.wcnt = s.wcnt := rfl

/-! ### The environment's move leaves the block alone -/

@[simp] theorem State.advanceEnv_st (s : State) (i : Instr) : (s.advanceEnv i).st = s.st := by
  cases i <;> simp only [State.advanceEnv, Instr.format]
  cases s.plan <;> rfl

@[simp] theorem State.advanceEnv_win (s : State) (i : Instr) : (s.advanceEnv i).win = s.win := by
  cases i <;> simp only [State.advanceEnv, Instr.format]
  cases s.plan <;> rfl

@[simp] theorem State.advanceEnv_wcnt (s : State) (i : Instr) : (s.advanceEnv i).wcnt = s.wcnt := by
  cases i <;> simp only [State.advanceEnv, Instr.format]
  cases s.plan <;> rfl

@[simp] theorem State.advanceEnv_skip (s : State) (i : Instr) : (s.advanceEnv i).skip = s.skip := by
  cases i <;> simp only [State.advanceEnv, Instr.format]
  cases s.plan <;> rfl

@[simp] theorem State.advanceEnv_cnt (s : State) (i : Instr) : (s.advanceEnv i).cnt = s.cnt := by
  cases i <;> simp only [State.advanceEnv, Instr.format]
  cases s.plan <;> rfl

@[simp] theorem State.advanceEnv_tsize (s : State) (i : Instr) : (s.advanceEnv i).tsize = s.tsize := by
  cases i <;> simp only [State.advanceEnv, Instr.format]
  cases s.plan <;> rfl

@[simp] theorem State.advanceEnv_fb (s : State) (i : Instr) : (s.advanceEnv i).fb = s.fb := by
  cases i <;> simp only [State.advanceEnv, Instr.format]
  cases s.plan <;> rfl

@[simp] theorem State.advanceEnv_pos (s : State) (i : Instr) : (s.advanceEnv i).pos = s.pos := by
  cases i <;> simp only [State.advanceEnv, Instr.format]
  cases s.plan <;> rfl

@[simp] theorem State.advanceEnv_out (s : State) (i : Instr) : (s.advanceEnv i).out = s.out := by
  cases i <;> simp only [State.advanceEnv, Instr.format]
  cases s.plan <;> rfl

end Sys2Proof.Machine
end

