-- ==== Sys2Proof/Laws/Memory.lean ====
section
/-! SUPPORT. The frame buffer: a read after a write, the canonical form kept by every write, and what the
accesses of spec/00_scope.md R9 can answer. -/

namespace Sys2Proof.Machine

/-- Reading any cell after one byte is written: the byte at its index, the old cell elsewhere. -/
theorem fbCell_fbPut (fb : List Host.Cell) (i a : Nat) (b : Byte) :
    fbCell (fbPut fb i b) a = if a = i then some b else fbCell fb a := by
  induction fb with
  | nil =>
    by_cases h : a = i
    · simp [fbPut, fbCell, h]
    · have h' : ¬ i = a := fun e => h e.symm
      simp [fbPut, fbCell, h, h']
  | cons c cs ih =>
    have hcons (cs' : List Host.Cell) (c' : Host.Cell) :
        fbCell (c' :: cs') a = if c'.1 = a then some c'.2 else fbCell cs' a := rfl
    unfold fbPut
    by_cases hlt : c.1 < i
    · rw [if_pos hlt, hcons, hcons, ih]
      split_ifs <;> first | rfl | omega
    · rw [if_neg hlt]
      by_cases he : c.1 = i
      · rw [if_pos he, hcons, hcons]
        split_ifs <;> first | rfl | omega
      · rw [if_neg he, hcons, hcons]
        split_ifs <;> first | rfl | omega

/-- The canonical form of a list with a first cell. -/
theorem fbRising_cons {lo : Nat} {c : Host.Cell} {cs : List Host.Cell} : fbRising lo (c :: cs) = true ↔
    (lo ≤ c.1 ∧ c.1 < 65535) ∧ fbRising (c.1 + 1) cs = true := by
  show (decide (lo ≤ c.1) && decide (c.1 < 65535) && fbRising (c.1 + 1) cs) = true ↔ _
  simp only [Bool.and_eq_true, decide_eq_true_eq]

/-- A bound below which no index lies may be lowered. -/
theorem fbRising_mono {lo lo' : Nat} {fb : List Host.Cell} (h : lo' ≤ lo) (hf : fbRising lo fb = true) :
    fbRising lo' fb = true := by
  cases fb with
  | nil => rfl
  | cons c cs =>
    simp only [fbRising, Bool.and_eq_true, decide_eq_true_eq] at hf ⊢
    exact ⟨⟨by omega, hf.1.2⟩, hf.2⟩

/-- A write at an index that exists keeps the cells rising. -/
theorem fbRising_fbPut {lo i : Nat} {fb : List Host.Cell} (b : Byte) (hlo : lo ≤ i) (hi : i < 65535)
    (hf : fbRising lo fb = true) : fbRising lo (fbPut fb i b) = true := by
  induction fb generalizing lo with
  | nil => simp [fbPut, fbRising, hlo, hi]
  | cons c cs ih =>
    obtain ⟨⟨h1, h2⟩, h3⟩ := fbRising_cons.1 hf
    unfold fbPut
    by_cases hlt : c.1 < i
    · rw [if_pos hlt, fbRising_cons]
      exact ⟨⟨h1, h2⟩, ih (by omega) h3⟩
    · rw [if_neg hlt]
      by_cases he : c.1 = i
      · rw [if_pos he, fbRising_cons]
        exact ⟨⟨hlo, hi⟩, he ▸ h3⟩
      · rw [if_neg he, fbRising_cons, fbRising_cons]
        exact ⟨⟨hlo, hi⟩, ⟨by show i + 1 ≤ c.1; omega, h2⟩, h3⟩

/-- Every write to an index that exists keeps the canonical form. -/
theorem wf_fbPut {i : Nat} {fb : List Host.Cell} (b : Byte) (hi : i < 65535)
    (hf : Memory.wf fb = true) : Memory.wf (fbPut fb i b) = true :=
  fbRising_fbPut b (Nat.zero_le i) hi hf

/-- The reset state's frame buffer has the canonical form. -/
theorem wf_reset : Memory.wf State.reset.fb = true := rfl

/-- What a one-byte write can do: if it answers s1, the index exists, and s1 is s with that one cell written;
the canonical form is kept. -/
theorem memWrite_ok {s s1 : State} {i : Nat} {b : Byte} (h : s.memWrite i b = .ok s1) :
    i < 65535 ∧ s1 = { s with fb := fbPut s.fb i b } ∧
      (∀ a, fbCell s1.fb a = if a = i then some b else fbCell s.fb a) ∧
      (Memory.wf s.fb = true → Memory.wf s1.fb = true) := by
  unfold State.memWrite at h
  split at h
  · rename_i hi
    cases h
    exact ⟨hi, rfl, fun a => fbCell_fbPut s.fb i a b, wf_fbPut b hi⟩
  · cases h

/-- A write to an index that exists answers. -/
theorem memWrite_eq {i : Nat} (s : State) (b : Byte) (hi : i < 65535) :
    s.memWrite i b = .ok { s with fb := fbPut s.fb i b } :=
  if_pos hi

/-- What a one-byte read can answer: a cell below CNT in Decoding that holds the byte (R36, R47). -/
theorem readFb_ok {s : State} {i : Nat} {b : Byte} :
    s.readFb i = .ok b ↔ s.st = .decoding ∧ i < s.cnt.toNat ∧ fbCell s.fb i = some b := by
  unfold State.readFb
  by_cases hc : s.st = .decoding ∧ i < s.cnt.toNat
  · rw [if_pos hc]
    cases h : fbCell s.fb i <;> simp [hc.1, hc.2]
  · rw [if_neg hc]
    constructor
    · intro h
      cases h
    · rintro ⟨h1, h2, -⟩
      exact absurd ⟨h1, h2⟩ hc

/-- What a read of n cells can answer: n bytes, each the byte its cell holds (R9). -/
theorem memRead_ok {s : State} {a n : Nat} {bs : List Byte} (h : s.memRead a n = .ok bs) :
    bs.length = n ∧ ∀ i, i < n → s.readFb (a + i) = .ok (bs.getD i 0) := by
  induction n generalizing bs with
  | zero =>
    cases h
    exact ⟨rfl, fun i hi => absurd hi (Nat.not_lt_zero i)⟩
  | succ n ih =>
    unfold State.memRead at h
    split at h
    · rename_i front hfront
      split at h
      · rename_i b hb
        cases h
        obtain ⟨hl, hr⟩ := ih hfront
        refine ⟨by simp [hl], fun i hi => ?_⟩
        by_cases hin : i < n
        · rw [hr i hin, List.getD_append _ _ _ _ (by omega)]
        · have : i = n := by omega
          subst this
          rw [hb, List.getD_append_right _ _ _ _ (by omega)]
          simp [hl]
      · cases h
    · cases h

/-- A read of cells that hold the bytes of a list answers the list. -/
theorem memRead_of_cells {s : State} {bs : List Byte} (hd : s.st = .decoding)
    (hl : bs.length ≤ s.cnt.toNat) (h : ∀ i, i < bs.length → fbCell s.fb i = bs[i]?) :
    s.memRead 0 bs.length = .ok bs := by
  have key : ∀ n, n ≤ bs.length → s.memRead 0 n = .ok (bs.take n) := by
    intro n
    induction n with
    | zero => intro _; rfl
    | succ n ih =>
      intro hn
      have hb : s.readFb (0 + n) = .ok bs[n] := by
        rw [readFb_ok, Nat.zero_add]
        exact ⟨hd, by omega, by rw [h n (by omega), List.getElem?_eq_getElem (by omega)]⟩
      simp only [State.memRead, ih (by omega), hb]
      rw [List.take_succ_eq_append_getElem (by omega)]
  have := key bs.length (Nat.le_refl _)
  rwa [List.take_length] at this

end Sys2Proof.Machine
end

