-- ==== Sys2Proof/Laws/Ops.lean ====
section
/-! SUPPORT. What each shared operation can do, said once: outcomes of a guarded operation and of a read,
the register reads, saturation, the window count, and the two inversion lemmas of a step. -/

namespace Sys2Proof.Machine

/-! ### Outcomes -/

/-- If an operation that goes on after a read answers t, the read answered and t comes from what follows. -/
theorem orFault_next {α : Type} {r : Except Fault α} {k : α → StepResult} {t : State}
    (h : orFault r k = .next t) : ∃ a, r = .ok a ∧ k a = .next t := by
  cases r with
  | ok a => exact ⟨a, rfl, h⟩
  | error f => cases h

@[simp] theorem orFault_ok {α : Type} (a : α) (k : α → StepResult) : orFault (.ok a) k = k a := rfl

@[simp] theorem orFault_error {α : Type} (f : Fault) (k : α → StepResult) :
    orFault (.error f) k = .fault f := rfl

/-- If a guarded operation answers t, its row of the map holds (R70). -/
theorem whenSelected_next {s t : State} {i : Instr} {k : StepResult}
    (h : s.whenSelected i k = .next t) : i.row s.ctx = true ∧ k = .next t := by
  unfold State.whenSelected at h
  split at h
  · exact ⟨‹_›, h⟩
  · cases h

/-- Where its row holds, a guarded operation is its body. -/
theorem whenSelected_of_row {s : State} {i : Instr} {k : StepResult} (h : i.row s.ctx = true) :
    s.whenSelected i k = k := if_pos h

/-- If an outcome with the environment's move added answers u, the operation answered the t that u is the
environment's move from. -/
theorem thenEnv_next {r : StepResult} {i : Instr} {u : State} (h : thenEnv r i = .next u) :
    ∃ t, r = .next t ∧ u = t.advanceEnv i := by
  cases r with
  | next t => cases h; exact ⟨t, rfl, rfl⟩
  | fault f => cases h
  | refused q => cases h

/-- If a step answers u, it ran the operation the decoder selected, and then the environment moved. -/
theorem step_next {s u : State} (h : step s = .next u) :
    ∃ i t, s.fetch = .ok i ∧ exec i s = .next t ∧ u = t.advanceEnv i := by
  unfold step at h
  split at h
  · rename_i i hi
    obtain ⟨t, ht, hu⟩ := thenEnv_next h
    exact ⟨i, t, hi, ht, hu⟩
  · cases h

/-! ### Register reads and counts -/

theorem isScan_iff (c : ControlState) : c.isScan = true ↔ c = .scanning ∨ c = .recovering := by
  cases c <;> decide

/-- In a scan state WCNT and SKIP are read as they are (R36). -/
theorem readWcnt_of_scan {s : State} (h : s.st.isScan = true) : s.readWcnt = .ok s.wcnt := if_pos h

theorem readSkip_of_scan {s : State} (h : s.st.isScan = true) : s.readSkip = .ok s.skip := if_pos h

/-- In Decoding with `CNT >= 17` TSIZE is read as it is (R36). -/
theorem readTsize_of_payload {s : State} (h : s.st = .decoding) (hc : 17 ≤ s.cnt.toNat) :
    s.readTsize = .ok s.tsize := if_pos ⟨h, hc⟩

/-- SKIP after a shift in a scan state (R24). -/
theorem skipAfterShift_of_scan {s : State} (h : s.st.isScan = true) :
    s.skipAfterShift = .ok (if s.wcnt.toNat = 4 then satSucc s.skip else s.skip) := by
  simp only [State.skipAfterShift, readWcnt_of_scan h, readSkip_of_scan h]

/-- The discard counter's increment saturates at 2^64 - 1 (R24). -/
theorem satSucc_toNat (k : SkipCount) : (satSucc k).toNat = min (k.toNat + 1) (2 ^ 64 - 1) := by
  have hk := k.isLt
  unfold satSucc
  split
  · omega
  · have h1 : (1 : SkipCount).toNat = 1 := rfl
    rw [BitVec.toNat_add, h1]
    omega

/-- The fill count after a shift is `min(4, WCNT + 1)` (R23, R81). -/
theorem fillNext_toNat (n : FillCount) : (fillNext n).toNat = min 4 (n.toNat + 1) := by
  revert n
  decide

/-- The failure entry, all of it (R126). -/
theorem raise_eq (s : State) (k : FailureKind) : s.raise k = { s with
    out := s.out ++ [.err k], cnt := 0, wcnt := 0, skip := 0, st := .recovering } := rfl

/-- The delivery of a Message, all of it (R93, R94). -/
theorem deliver_eq (s : State) (raw : List Byte) (t : Word) : s.deliver raw t = { s with
    out := s.out ++ [.msg raw t], cnt := 0, wcnt := 0, skip := 0, st := .scanning } := rfl

/-- Big-endian assembly, as a number (R64). -/
theorem assembleTotalSize_toNat (hi lo : Byte) :
    (assembleTotalSize hi lo).toNat = 256 * hi.toNat + lo.toNat := by
  have h1 := hi.isLt
  have h2 := lo.isLt
  unfold assembleTotalSize
  rw [BitVec.toNat_append, ← Nat.shiftLeft_add_eq_or_of_lt h2, Nat.shiftLeft_eq]
  omega

end Sys2Proof.Machine
end

