-- ==== Sys2Proof/Laws/Exec.lean ====
section
/-! SUPPORT. One inversion lemma per operation: if it answers t, then its row of the map holds and t is this.
Later proofs cite these instead of unfolding a meaning. -/

namespace Sys2Proof.Machine

/-- What SCAN.SHIFT can do (R82). -/
theorem execScanShift_next {b : Byte} {s t : State} (h : execScanShift b s = .next t) :
    s.st.isScan = true ∧ matchAfter s.win s.wcnt b = false ∧
      t = { s with
        win := s.win.shift b
        wcnt := fillNext s.wcnt
        skip := if s.wcnt.toNat = 4 then satSucc s.skip else s.skip
        pos := s.pos + 1 } := by
  obtain ⟨hrow, hk⟩ := whenSelected_next h
  replace hrow := row_scanShift.1 hrow
  rw [skipAfterShift_of_scan hrow.1, orFault_ok] at hk
  cases hk
  exact ⟨hrow.1, hrow.2, rfl⟩

/-- What SCAN.MATCH can do (R83). -/
theorem execScanMatch_next {b : Byte} {s t : State} (h : execScanMatch b s = .next t) :
    s.st.isScan = true ∧ matchAfter s.win s.wcnt b = true ∧
      t = State.beginFrame { s with
        win := s.win.shift b
        wcnt := fillNext s.wcnt
        skip := if s.wcnt.toNat = 4 then satSucc s.skip else s.skip
        pos := s.pos + 1
        out := s.out ++ [.sync (if s.wcnt.toNat = 4 then satSucc s.skip else s.skip)] } := by
  obtain ⟨hrow, hk⟩ := whenSelected_next h
  replace hrow := row_scanMatch.1 hrow
  rw [skipAfterShift_of_scan hrow.1, orFault_ok] at hk
  cases hk
  exact ⟨hrow.1, hrow.2, rfl⟩

/-- What SCAN.EOS can do (R84). -/
theorem execScanEos_next {s t : State} (h : execScanEos s = .next t) :
    s.st.isScan = true ∧ t = { s with out := s.out ++ [.exhausted], st := .done } := by
  obtain ⟨hrow, hk⟩ := whenSelected_next h
  cases hk
  exact ⟨hrow, rfl⟩

/-- What HDR.BYTE can do (R91). -/
theorem execHdrByte_next {b : Byte} {s t : State} (h : execHdrByte b s = .next t) :
    s.st = .decoding ∧ 4 ≤ s.cnt.toNat ∧ s.cnt.toNat ≤ 14 ∧
      t = { s with fb := fbPut s.fb s.cnt.toNat b, cnt := s.cnt + 1, pos := s.pos + 1 } := by
  obtain ⟨hrow, hk⟩ := whenSelected_next h
  replace hrow := row_hdrByte.1 hrow
  obtain ⟨s1, hw, hk⟩ := orFault_next hk
  rw [(memWrite_ok hw).2.1] at hk
  cases hk
  exact ⟨hrow.1, hrow.2.1, hrow.2.2, rfl⟩

/-- What LEN.HI can do (R92). -/
theorem execLenHi_next {b : Byte} {s t : State} (h : execLenHi b s = .next t) :
    s.st = .decoding ∧ s.cnt.toNat = 15 ∧
      t = { s with fb := fbPut s.fb 15 b, cnt := 16, pos := s.pos + 1 } := by
  obtain ⟨hrow, hk⟩ := whenSelected_next h
  replace hrow := row_lenHi.1 hrow
  obtain ⟨s1, hw, hk⟩ := orFault_next hk
  rw [(memWrite_ok hw).2.1] at hk
  cases hk
  exact ⟨hrow.1, hrow.2, rfl⟩

/-- What LEN.LO can do (R93): Malformed, a Message without payload, or on to the payload. -/
theorem execLenLo_next {b : Byte} {s t : State} (h : execLenLo b s = .next t) :
    s.st = .decoding ∧ s.cnt.toNat = 16 ∧ ∃ hi, fbCell s.fb 15 = some hi ∧
      (((assembleTotalSize hi b).toNat < 17 ∧
          t = State.raise { s with
            fb := fbPut s.fb 16 b, tsize := assembleTotalSize hi b, pos := s.pos + 1 } .malformed) ∨
        ((assembleTotalSize hi b).toNat = 17 ∧ ∃ front, s.memRead 0 16 = .ok front ∧
          t = State.deliver { s with
            fb := fbPut s.fb 16 b, tsize := assembleTotalSize hi b, pos := s.pos + 1 }
              (front ++ [b]) (assembleTotalSize hi b)) ∨
        (17 < (assembleTotalSize hi b).toNat ∧
          t = { s with
            fb := fbPut s.fb 16 b, tsize := assembleTotalSize hi b, pos := s.pos + 1, cnt := 17 })) := by
  obtain ⟨hrow, hk⟩ := whenSelected_next h
  replace hrow := row_lenLo.1 hrow
  obtain ⟨hi, hr, hk⟩ := orFault_next hk
  obtain ⟨s1, hw, hk⟩ := orFault_next hk
  rw [(memWrite_ok hw).2.1] at hk
  refine ⟨hrow.1, hrow.2, hi, (readFb_ok.1 hr).2.2, ?_⟩
  by_cases h1 : (assembleTotalSize hi b).toNat < 17
  · simp only [if_pos h1] at hk
    cases hk
    exact .inl ⟨h1, rfl⟩
  · by_cases h2 : (assembleTotalSize hi b).toNat = 17
    · simp only [if_neg h1, if_pos h2] at hk
      obtain ⟨front, hf, hk⟩ := orFault_next hk
      cases hk
      exact .inr (.inl ⟨h2, front, hf, rfl⟩)
    · simp only [if_neg h1, if_neg h2] at hk
      cases hk
      exact .inr (.inr ⟨by omega, rfl⟩)

/-- What PAY.BYTE can do (R94): complete the Message, or count on. -/
theorem execPayByte_next {b : Byte} {s t : State} (h : execPayByte b s = .next t) :
    s.st = .decoding ∧ 17 ≤ s.cnt.toNat ∧ s.cnt.toNat < 65535 ∧
      ((s.cnt.toNat + 1 = s.tsize.toNat ∧ ∃ front, s.memRead 0 s.cnt.toNat = .ok front ∧
          t = State.deliver { s with fb := fbPut s.fb s.cnt.toNat b, pos := s.pos + 1 }
            (front ++ [b]) s.tsize) ∨
        (s.cnt.toNat + 1 ≠ s.tsize.toNat ∧
          t = { s with fb := fbPut s.fb s.cnt.toNat b, pos := s.pos + 1, cnt := s.cnt + 1 })) := by
  obtain ⟨hrow, hk⟩ := whenSelected_next h
  replace hrow := row_payByte.1 hrow
  rw [readTsize_of_payload hrow.1 hrow.2, orFault_ok] at hk
  obtain ⟨s1, hw, hk⟩ := orFault_next hk
  obtain ⟨hlt, hs1, -⟩ := memWrite_ok hw
  rw [hs1] at hk
  refine ⟨hrow.1, hrow.2, hlt, ?_⟩
  by_cases h1 : s.cnt.toNat + 1 = s.tsize.toNat
  · rw [if_pos h1] at hk
    obtain ⟨front, hf, hk⟩ := orFault_next hk
    cases hk
    exact .inl ⟨h1, front, hf, rfl⟩
  · rw [if_neg h1] at hk
    cases hk
    exact .inr ⟨h1, rfl⟩

/-- What DEC.EOS can do (R95). -/
theorem execDecEos_next {s t : State} (h : execDecEos s = .next t) :
    s.st = .decoding ∧ t = s.raise .truncated := by
  obtain ⟨hrow, hk⟩ := whenSelected_next h
  cases hk
  exact ⟨row_decEos.1 hrow, rfl⟩

/-- What DONE.HOLD can do (R107). -/
theorem execDoneHold_next {s t : State} (h : execDoneHold s = .next t) : s.st = .done ∧ t = s := by
  obtain ⟨hrow, hk⟩ := whenSelected_next h
  cases hk
  exact ⟨row_doneHold.1 hrow, rfl⟩

/-- What RESET can do (R108). -/
theorem execReset_next {s t : State} (h : execReset s = .next t) :
    t = { s with
      st := .scanning, wcnt := 0, win := ⟨0, 0, 0, 0⟩, skip := 0, cnt := 0, tsize := 0, pos := 0 } := by
  obtain ⟨-, hk⟩ := whenSelected_next h
  cases hk
  rfl

end Sys2Proof.Machine
end

