-- ==== Sys2Proof/Laws/PerInstr.lean ====
section
/-! SUPPORT. Families of statements made per operation. EncodeFormat: the encoding of an operation has the
`eos` bit of its format class, and a byte's operand stands in `data` (spec/30_encoding.md R60, R61). -/

namespace Sys2Proof.Laws.EncodeFormat

/-- The operand byte of an operation of format B. -/
def operand : Instr → Option Byte
  | .scanShift b => some b
  | .scanMatch b => some b
  | .scanEos => none
  | .hdrByte b => some b
  | .lenHi b => some b
  | .lenLo b => some b
  | .payByte b => some b
  | .decEos => none
  | .doneHold => none
  | .reset => none

/-- The symbol an operation's encoding reads back as: its operand byte, EOS, or (format X) not sampled. -/
def Statement (i : Instr) : Prop :=
  match i.format with
  | .byteSymbol => ∃ b, operand i = some b ∧ symbolOf (encode i) = .byte b
  | .endSymbol => operand i = none ∧ symbolOf (encode i) = .eos
  | .noSymbol => operand i = none

/-- The 9 bits of a byte read back as the byte. -/
theorem symbolOf_byte (b : Byte) : symbolOf (Symbol.byte b).word = .byte b := by
  revert b
  decide

theorem scanShift (b : Byte) : Statement (.scanShift b) := ⟨b, rfl, symbolOf_byte b⟩
theorem scanMatch (b : Byte) : Statement (.scanMatch b) := ⟨b, rfl, symbolOf_byte b⟩
theorem scanEos : Statement .scanEos := ⟨rfl, rfl⟩
theorem hdrByte (b : Byte) : Statement (.hdrByte b) := ⟨b, rfl, symbolOf_byte b⟩
theorem lenHi (b : Byte) : Statement (.lenHi b) := ⟨b, rfl, symbolOf_byte b⟩
theorem lenLo (b : Byte) : Statement (.lenLo b) := ⟨b, rfl, symbolOf_byte b⟩
theorem payByte (b : Byte) : Statement (.payByte b) := ⟨b, rfl, symbolOf_byte b⟩
theorem decEos : Statement .decEos := ⟨rfl, rfl⟩
theorem doneHold : Statement .doneHold := rfl
theorem reset : Statement .reset := rfl

end Sys2Proof.Laws.EncodeFormat
end

