-- ==== Sys2Proof/Tests/Slice0.lean ====
section
/-! SUPPORT. Named tests. Expected values come from spec/95_test_vectors.md (its vector ids are cited) or are
worked by hand from the rule named. The last section shows, for every statement with hypotheses, a concrete
case that meets them. -/

namespace Sys2Proof.Machine

/-! ### Helpers -/

/-- One field of the state after an operation. -/
def fieldAfter {α : Type} (f : State → α) (r : StepResult) : Option α :=
  match r with
  | .next t => some (f t)
  | .fault _ => none
  | .refused _ => none

/-- Why an outcome stopped by a fault. -/
def faultOf : StepResult → Option Fault
  | .next _ => none
  | .fault f => some f
  | .refused _ => none

/-- Why an outcome was refused. -/
def refusalOf : StepResult → Option Refusal
  | .next _ => none
  | .fault _ => none
  | .refused q => some q

/-- Cells from an index on. -/
def cellsFrom : Nat → List Byte → List Host.Cell
  | _, [] => []
  | i, b :: bs => (i, b) :: cellsFrom (i + 1) bs

/-- A scan state with a window. -/
def scanState (st : ControlState) (w : Window) (n : FillCount) (k : SkipCount) : State :=
  { State.reset with st := st, win := w, wcnt := n, skip := k }

/-- Decoding with these bytes in the buffer. -/
def frameState (bs : List Byte) (t : Word) : State :=
  { State.reset with st := .decoding, cnt := BitVec.ofNat 16 bs.length, tsize := t, fb := cellsFrom 0 bs }

/-- The sync word and eleven zero header bytes. -/
def front15 : List Byte := Config.syncWord ++ List.replicate 11 0

/-- The scenario S1 up to its last payload byte. -/
def s1Front : List Byte := front15 ++ [0x00, 0x1B, 1, 2, 3, 4, 5, 6, 7, 8, 9]

/-! ### Well-formedness -/

theorem test_wellFormed_scanMatch : (Instr.scanMatch 0xF0).wellFormed = true := by decide
theorem test_illFormed_scanMatch : (Instr.scanMatch 0x00).wellFormed = false := by decide
theorem test_illFormed_scanMatch_oneBit : (Instr.scanMatch 0xF1).wellFormed = false := by decide

/-! ### Decoding: words written out from R61 and the patterns of opcode_table.json -/

/-- V37: `Byte(FA)` is 0 1111 1010. -/
theorem test_symbol_byte : symbolOf 0b011111010 = .byte 0xFA := by decide
/-- V37: EOS is 1 with any data. -/
theorem test_symbol_eos : symbolOf 0b101010101 = .eos := by decide
theorem test_decode_scanShift : decode false Ctx.afterReset 0b000010001 = .ok (.scanShift 0x11) := by decide
/-- V2s. -/
theorem test_decode_scanMatch :
    decode false ⟨.scanning, 0, ⟨0x77, 0xFA, 0xFA, 0xF0⟩, 3⟩ 0b011110000 = .ok (.scanMatch 0xF0) := by decide
/-- V5s: one wrong bit in the last byte. -/
theorem test_decode_nearMiss :
    decode false ⟨.scanning, 0, ⟨0x77, 0xFA, 0xFA, 0xF0⟩, 3⟩ 0b011110001 = .ok (.scanShift 0xF1) := by decide
/-- R81: a window that is not yet full after the shift never matches. -/
theorem test_decode_stale_window :
    decode false ⟨.recovering, 0, ⟨0xFA, 0xFA, 0xFA, 0xF0⟩, 2⟩ 0b011110000 = .ok (.scanShift 0xF0) := by decide
theorem test_decode_scanEos :
    decode false ⟨.recovering, 0, ⟨0, 0xFA, 0xFA, 0xF0⟩, 3⟩ 0b111110000 = .ok .scanEos := by decide
theorem test_decode_hdrByte_first :
    decode false ⟨.decoding, 4, ⟨0xFA, 0xFA, 0xF0, 0xF0⟩, 4⟩ 0b010110000 = .ok (.hdrByte 0xB0) := by decide
theorem test_decode_hdrByte_last :
    decode false ⟨.decoding, 14, ⟨0xFA, 0xFA, 0xF0, 0xF0⟩, 4⟩ 0b010111010 = .ok (.hdrByte 0xBA) := by decide
theorem test_decode_lenHi :
    decode false ⟨.decoding, 15, ⟨0xFA, 0xFA, 0xF0, 0xF0⟩, 4⟩ 0b000000000 = .ok (.lenHi 0x00) := by decide
theorem test_decode_lenLo :
    decode false ⟨.decoding, 16, ⟨0xFA, 0xFA, 0xF0, 0xF0⟩, 4⟩ 0b000011011 = .ok (.lenLo 0x1B) := by decide
theorem test_decode_payByte :
    decode false ⟨.decoding, 17, ⟨0xFA, 0xFA, 0xF0, 0xF0⟩, 4⟩ 0b000000001 = .ok (.payByte 0x01) := by decide
theorem test_decode_payByte_last :
    decode false ⟨.decoding, 65534, ⟨0, 0, 0, 0⟩, 0⟩ 0b011111111 = .ok (.payByte 0xFF) := by decide
theorem test_decode_decEos :
    decode false ⟨.decoding, 4, ⟨0xFA, 0xFA, 0xF0, 0xF0⟩, 4⟩ 0b100000000 = .ok .decEos := by decide
theorem test_decode_doneHold : decode false ⟨.done, 0, ⟨0, 0, 0, 0⟩, 0⟩ 0b011110000 = .ok .doneHold := by decide
theorem test_decode_reset :
    decode true ⟨.decoding, 9, ⟨0xFA, 0xFA, 0xF0, 0xF0⟩, 4⟩ 0b011110000 = .ok .reset := by decide
/-- R71, R111: the unreachable combination is refused, for a byte and for EOS. -/
theorem test_decode_noRow : decode false ⟨.decoding, 3, ⟨0, 0, 0, 0⟩, 0⟩ 0b000000001 = .error .noRow ∧
    decode false ⟨.decoding, 3, ⟨0, 0, 0, 0⟩, 0⟩ 0b100000000 = .error .noRow := by decide
theorem test_tableWord_byte : decodeTableWord 9 0xFA = some (.scanShift 0xFA) := by decide
theorem test_tableWord_eos : decodeTableWord 9 0x155 = some .scanEos := by decide

/-! ### Operands and codes -/

/-- V34: the byte order of the length field. -/
theorem test_totalSize : assembleTotalSize 0x00 0x1B = 27 ∧ assembleTotalSize 0x1B 0x00 = 6912 ∧
    assembleTotalSize 0x01 0x00 = 256 ∧ assembleTotalSize 0xFF 0xFF = 65535 := by decide
/-- V39. -/
theorem test_remaining : remainingOf 17 = some 0 ∧ remainingOf 27 = some 10 ∧
    remainingOf 65535 = some 65518 ∧ remainingOf 16 = none := by decide
/-- V38. -/
theorem test_statusOf : statusOf (.sync 3) = some (0, some 3) ∧ statusOf (.err .truncated) = some (1, none) ∧
    statusOf (.err .malformed) = some (2, none) ∧ statusOf .exhausted = some (3, none) := by decide
/-- R21, R121. -/
theorem test_codes : stCode .recovering = 2 ∧ stCode .done = 3 ∧ causeCode .truncated = 1 := by decide
/-- V35. -/
theorem test_encodeFrame :
    encodeFrame [0xA0, 0xA1, 0xA2, 0xA3, 0xA4, 0xA5, 0xA6, 0xA7, 0xA8, 0xA9, 0xAA] [] =
      [0xFA, 0xFA, 0xF0, 0xF0, 0xA0, 0xA1, 0xA2, 0xA3, 0xA4, 0xA5, 0xA6, 0xA7, 0xA8, 0xA9, 0xAA, 0x00, 0x11] := by
  decide
/-- R85's table: a third FA keeps the matcher at 2; after FA FA F0, an FA goes to 1. -/
theorem test_matcherNext : matcherNext 2 0xFA = some 2 ∧ matcherNext 3 0xFA = some 1 ∧
    matcherNext 3 0xF0 = none ∧ matcherNext 1 0xF0 = some 0 := by decide

/-! ### One step of each operation -/

/-- V1s. -/
theorem test_scanShift_first : fieldAfter (fun t => (t.win.w3, t.wcnt, t.skip, t.out))
    (exec (.scanShift 0xFA) State.reset) = some (0xFA, 1, 0, []) := by decide
/-- V8s: the discard counter saturates. -/
theorem test_scanShift_saturates : fieldAfter State.skip
    (exec (.scanShift 0x00) (scanState .scanning ⟨1, 2, 3, 4⟩ 4 0xFFFFFFFFFFFFFFFF)) =
      some 0xFFFFFFFFFFFFFFFF := by decide
/-- V2s. -/
theorem test_scanMatch_full : fieldAfter (fun t => (t.st, t.cnt, t.out, fbCell t.fb 1, fbCell t.fb 2))
    (exec (.scanMatch 0xF0) (scanState .scanning ⟨0, 0xFA, 0xFA, 0xF0⟩ 3 0)) =
      some (.decoding, 4, [.sync 0], some 0xFA, some 0xF0) := by decide
/-- V4s: from Recovering, with the byte leaving the window counted. -/
theorem test_scanMatch_recovering : fieldAfter (fun t => (t.st, t.skip, t.tsize, t.out))
    (exec (.scanMatch 0xF0) { scanState .recovering ⟨0x33, 0xFA, 0xFA, 0xF0⟩ 4 2 with tsize := 5 }) =
      some (.decoding, 3, 0, [.sync 3]) := by decide
/-- V7s. -/
theorem test_scanEos : fieldAfter (fun t => (t.st, t.wcnt, t.pos, t.out))
    (exec .scanEos (scanState .recovering ⟨0, 0xFA, 0xFA, 0xF0⟩ 3 0)) =
      some (.done, 3, 0, [.exhausted]) := by decide
/-- R91: the byte lands at FB[CNT]. -/
theorem test_hdrByte : fieldAfter (fun t => (t.st, t.cnt, fbCell t.fb 4, t.pos))
    (exec (.hdrByte 0xFA) (frameState Config.syncWord 0)) = some (.decoding, 5, some 0xFA, 1) := by decide
/-- R92. -/
theorem test_lenHi : fieldAfter (fun t => (t.st, t.cnt, fbCell t.fb 15, t.tsize))
    (exec (.lenHi 0x1B) (frameState front15 0)) = some (.decoding, 16, some 0x1B, 0) := by decide
/-- V12: total_size 16 is Malformed. -/
theorem test_lenLo_malformed : fieldAfter (fun t => (t.st, t.cnt, t.wcnt, t.tsize, t.out))
    (exec (.lenLo 0x10) (frameState (front15 ++ [0]) 0)) =
      some (.recovering, 0, 0, 16, [.err .malformed]) := by decide
/-- V11: total_size 17 completes the Message inside LEN.LO. -/
theorem test_lenLo_smallest : fieldAfter (fun t => (t.st, t.cnt, t.out))
    (exec (.lenLo 0x11) (frameState (front15 ++ [0]) 0)) =
      some (.scanning, 0, [.msg (front15 ++ [0x00, 0x11]) 17]) := by decide
/-- S1: the tenth payload byte completes the Message. -/
theorem test_payByte_last : fieldAfter (fun t => (t.st, t.cnt, t.tsize, t.out))
    (exec (.payByte 0x0A) (frameState s1Front 27)) =
      some (.scanning, 0, 27, [.msg (s1Front ++ [0x0A]) 27]) := by decide
/-- PC step 22: a payload byte is stored whatever it is. -/
theorem test_payByte_more : fieldAfter (fun t => (t.st, t.cnt, fbCell t.fb 17, t.out))
    (exec (.payByte 0xFA) (frameState (front15 ++ [0x00, 0x15]) 21)) =
      some (.decoding, 18, some 0xFA, []) := by decide
/-- R95 corner (b): Truncated right after the sync word. -/
theorem test_decEos : fieldAfter (fun t => (t.st, t.cnt, t.pos, t.out))
    (exec .decEos (frameState Config.syncWord 0)) =
      some (.recovering, 0, 0, [.err .truncated]) := by decide
/-- R107. -/
theorem test_doneHold : fieldAfter (fun t => (t.st, t.tsize, t.out))
    (exec .doneHold { State.reset with st := .done, tsize := 27, out := [.exhausted] }) =
      some (.done, 27, [.exhausted]) := by decide
/-- R108: the frame buffer stays, nothing is emitted. -/
theorem test_reset : fieldAfter (fun t => (t.st, t.cnt, t.tsize, fbCell t.fb 16, t.out))
    (exec .reset (frameState s1Front 27)) = some (.scanning, 0, 0, some 0x1B, []) := by decide
/-- The step takes the byte from the stream. -/
theorem test_step_takes_byte : fieldAfter (fun t => (t.win.w3, t.input, t.pos))
    (step (session [0x11, 0x22])) = some (0x11, [0x22], 1) := by decide
/-- The first step from the reset state itself: no stream, so EXHAUSTED (V1). -/
theorem test_step_reset : fieldAfter (fun t => (t.st, t.out)) (step State.reset) =
    some (.done, [.exhausted]) := by decide
/-- A fetch word is what the next step runs. -/
theorem test_withFetchWord : fieldAfter (fun t => (t.win.w3, t.out))
    (step (State.reset.withFetchWord 9 0xFA)) = some (0xFA, []) := by decide

/-! ### Stops, each by its name -/

theorem test_fault_unwritten : faultOf (exec (.payByte 1) { frameState [] 18 with cnt := 17 }) =
    some (.unwrittenCell 0) := by decide
theorem test_fault_noSuchCell : faultOf (exec (.payByte 1) { frameState [] 17 with cnt := 65535 }) =
    some (.noSuchCell 65535) := by decide
theorem test_fault_meaningless : (frameState Config.syncWord 0).readTsize = .error (.meaningless .tsize) := by
  decide
theorem test_refused_noRow : refusalOf (step { frameState [] 0 with input := [7] }) = some .noRow := by decide
theorem test_refused_noRow_eos : refusalOf (step (frameState [1, 2, 3] 0)) = some .noRow := by decide
theorem test_refused_offRow : refusalOf (exec (.lenHi 0) State.reset) = some .notSelected := by decide

/-! ### Witnesses: each statement's hypotheses hold together somewhere, clause by clause -/

/-- A scan whose next byte F0 completes the sync word. -/
def aboutToMatch : State := { scanState .recovering ⟨0x33, 0xFA, 0xFA, 0xF0⟩ 4 2 with input := [0xF0] }

/-- The scenario S1 with its last payload byte presented. -/
def aboutToDeliver : State := { frameState s1Front 27 with input := [0x0A] }

/-- A block that has finished. -/
def finished : State := { State.reset with st := .done, out := [.exhausted] }

/-- Eleven zero header bytes. -/
def zeros11 : List Byte := List.replicate 11 0

theorem witness_SymbolFormatTotal : (0x1AA : SymbolWord).getLsbD 8 = true ∧
    (0x100 : SymbolWord).getLsbD 8 = true ∧ (0x0FF : SymbolWord).getLsbD 8 = false := by decide

theorem witness_OperationMapTotal : (∃ c : Ctx, c.st = .decoding ∧ 4 ≤ c.cnt.toNat) ∧
    (∃ c : Ctx, c.st = .decoding ∧ c.cnt.toNat = 3) :=
  ⟨⟨⟨.decoding, 4, ⟨0, 0, 0, 0⟩, 0⟩, by decide⟩, ⟨⟨.decoding, 3, ⟨0, 0, 0, 0⟩, 0⟩, by decide⟩⟩

theorem witness_DecodeEncodeRoundTrip :
    ((Instr.scanMatch 0xF0).wellFormed = true ∧
      (Instr.scanMatch 0xF0).row ⟨.recovering, 0, ⟨0, 0xFA, 0xFA, 0xF0⟩, 3⟩ = true ∧
      Instr.scanMatch 0xF0 ≠ .reset) ∧
    ((Instr.hdrByte 9).row ⟨.decoding, 4, ⟨0, 0, 0, 0⟩, 0⟩ = true ∧
      (Instr.hdrByte 9).row ⟨.decoding, 14, ⟨0, 0, 0, 0⟩, 0⟩ = true) ∧
    decode false Ctx.afterReset 0x011 = .ok (.scanShift 0x11) := by decide

theorem witness_StepRunsSelected_next :
    decode aboutToMatch.resetIn aboutToMatch.ctx aboutToMatch.presented.word = .ok (.scanMatch 0xF0) ∧
      ∃ t, exec (.scanMatch 0xF0) aboutToMatch = .next t := ⟨by decide, _, rfl⟩

theorem witness_StepRunsSelected_reset : ∃ s : State, s.plan = [⟨0, [1]⟩] ∧
    decode s.resetIn s.ctx s.presented.word = .ok .reset ∧ ∃ t, exec .reset s = .next t :=
  ⟨{ aboutToMatch with plan := [⟨0, [1]⟩] }, rfl, by decide, _, rfl⟩

theorem witness_StepRunsSelected_fault : ∃ s : State,
    decode s.resetIn s.ctx s.presented.word = .ok (.payByte 1) ∧
      exec (.payByte 1) s = .fault (.unwrittenCell 0) :=
  ⟨{ frameState [] 18 with cnt := 17, input := [1] }, by decide, rfl⟩

theorem witness_UnmappedStepRefused : ((frameState [1, 2, 3] 0).resetIn = false ∧
      (frameState [1, 2, 3] 0).st = .decoding ∧ (frameState [1, 2, 3] 0).cnt.toNat < 4 ∧
      (frameState [1, 2, 3] 0).presented = .eos) ∧
    { frameState [1, 2, 3] 0 with input := [7] }.presented = .byte 7 := by decide

theorem witness_OffRowRefused : (Instr.lenHi 0).row State.reset.ctx = false ∧
    (Instr.scanShift 0xF0).row aboutToMatch.ctx = false := by decide

theorem witness_MatchTestExact : matchAfter ⟨0, 0xFA, 0xFA, 0xF0⟩ 3 0xF0 = true ∧
    (0xF1 : Byte) ≠ 0xF0 ∧ (2 : FillCount).toNat < 3 := by decide

theorem witness_ScanShiftEffect : State.reset.st = .scanning ∧
    matchAfter State.reset.win State.reset.wcnt 0xF0 = false := by decide

theorem witness_ScanMatchEffect : aboutToMatch.st = .recovering ∧
    matchAfter aboutToMatch.win aboutToMatch.wcnt 0xF0 = true := by decide

theorem witness_ScanEosEffect : State.reset.st = .scanning ∧ aboutToMatch.st = .recovering := by decide

theorem witness_HdrByteEffect :
    ((frameState Config.syncWord 0).st = .decoding ∧ (frameState Config.syncWord 0).cnt.toNat = 4) ∧
    ((frameState (front15.take 14) 0).st = .decoding ∧ (frameState (front15.take 14) 0).cnt.toNat = 14) := by
  decide

theorem witness_LenHiEffect : (frameState front15 0).st = .decoding ∧
    (frameState front15 0).cnt.toNat = 15 := by decide

theorem witness_LenLoEffect : (frameState (front15 ++ [0]) 0).st = .decoding ∧
    (frameState (front15 ++ [0]) 0).cnt.toNat = 16 ∧
    fbCell (frameState (front15 ++ [0]) 0).fb 15 = some 0 ∧
    (assembleTotalSize 0 16).toNat < 17 ∧ (assembleTotalSize 0 17).toNat = 17 ∧
    17 < (assembleTotalSize 0 18).toNat ∧ (front15 ++ [0]).length = 16 ∧
    (∀ i, i < (front15 ++ [0]).length →
      fbCell (frameState (front15 ++ [0]) 0).fb i = (front15 ++ [0])[i]?) := by decide

theorem witness_PayByteEffect_last : aboutToDeliver.st = .decoding ∧ 17 ≤ aboutToDeliver.cnt.toNat ∧
    aboutToDeliver.cnt.toNat + 1 = aboutToDeliver.tsize.toNat ∧ s1Front.length = aboutToDeliver.cnt.toNat ∧
    (∀ i, i < s1Front.length → fbCell aboutToDeliver.fb i = s1Front[i]?) := by decide

theorem witness_PayByteEffect_more : ∃ s : State, s.st = .decoding ∧ s.cnt.toNat = 17 ∧
    s.cnt.toNat < s.tsize.toNat ∧ s.cnt.toNat + 1 ≠ s.tsize.toNat :=
  ⟨frameState (front15 ++ [0x00, 0x15]) 21, by decide⟩

theorem witness_DecEosEffect : (frameState Config.syncWord 0).st = .decoding := by decide

theorem witness_DoneHoldEffect : finished.st = .done ∧ finished.resetIn = false := by decide

theorem witness_RemainingAfterCheck : (16 : Word).toNat < 17 ∧ 17 ≤ (17 : Word).toNat ∧
    17 ≤ (65535 : Word).toNat := by decide

theorem witness_MeaninglessReadsFault :
    (aboutToMatch.st = .recovering ∧ 4 ≤ aboutToMatch.wcnt.toNat) ∧
    (State.reset.st = .scanning ∧ ¬ 0 < State.reset.wcnt.toNat) ∧
    ¬ (aboutToDeliver.st = .scanning ∨ aboutToDeliver.st = .recovering) := by decide

theorem witness_FrameBufferWriteRead : (65534 < 65535) ∧ Memory.wf aboutToDeliver.fb = true ∧
    aboutToDeliver.st = .decoding ∧ s1Front.length ≤ aboutToDeliver.cnt.toNat ∧
    (∀ i, i < s1Front.length → fbCell aboutToDeliver.fb i = s1Front[i]?) := by decide

theorem witness_BlockInv_deliver : BlockInv aboutToDeliver := by decide

theorem witness_BlockInv_match : BlockInv aboutToMatch := by decide

theorem witness_InvKeptByEveryStep : BlockInv aboutToMatch ∧ ∃ t, step aboutToMatch = .next t :=
  ⟨witness_BlockInv_match, _, rfl⟩

theorem witness_OneEventPerStep : (∃ t, step aboutToMatch = .next t ∧ t.out = [.sync 3]) ∧
    ∃ t, step (session [1]) = .next t ∧ t.out = [] := ⟨⟨_, rfl, rfl⟩, _, rfl, rfl⟩

theorem witness_MessagesWellFormed : BlockInv aboutToDeliver ∧ ∃ t, step aboutToDeliver = .next t ∧
    t.out = aboutToDeliver.out ++ [.msg (s1Front ++ [0x0A]) 27] :=
  ⟨witness_BlockInv_deliver, _, rfl, by decide⟩

theorem witness_BytesConsumedOnce : aboutToMatch.resetIn = false ∧ ∃ t, step aboutToMatch = .next t :=
  ⟨by decide, _, rfl⟩

theorem witness_EveryStepProgresses :
    (BlockInv aboutToMatch ∧ aboutToMatch.resetIn = false ∧ aboutToMatch.st ≠ .done ∧
      aboutToMatch.input = [0xF0]) ∧
    (BlockInv (frameState front15 0) ∧ (frameState front15 0).resetIn = false ∧
      (frameState front15 0).st ≠ .done ∧ (frameState front15 0).input = []) ∧
    (BlockInv State.reset ∧ State.reset.resetIn = false ∧ State.reset.st ≠ .done ∧
      State.reset.input = []) :=
  ⟨⟨by decide, by decide⟩, ⟨by decide, by decide⟩, by decide, by decide⟩

theorem witness_TransitionTable_lenLo : ∃ s t : State, step s = .next t ∧ s.fetch = .ok (.lenLo 18) ∧
    t.st = .decoding := ⟨{ frameState (front15 ++ [0]) 0 with input := [18] }, _, rfl, by decide, rfl⟩

theorem witness_TransitionTable_payByte : ∃ s t : State, step s = .next t ∧ s.fetch = .ok (.payByte 9) ∧
    s.cnt.toNat + 1 < s.tsize.toNat :=
  ⟨{ frameState (front15 ++ [0x00, 0x15]) 21 with input := [9] }, _, rfl, by decide, by decide⟩

theorem witness_CauseTable_errors : (∃ t, step (frameState Config.syncWord 0) = .next t ∧
      t.out = [.err .truncated]) ∧
    ∃ t, step { frameState (front15 ++ [0]) 0 with input := [16] } = .next t ∧
      t.out = [.err .malformed] ∧ t.tsize = 16 := ⟨⟨_, rfl, rfl⟩, _, rfl, rfl, rfl⟩

theorem witness_CauseTable_scans : (∃ t, step State.reset = .next t ∧ t.out = [.exhausted]) ∧
    ∃ t, step aboutToMatch = .next t ∧ t.out = [.sync 3] := ⟨⟨_, rfl, rfl⟩, _, rfl, rfl⟩

theorem witness_RecoveringScansAlike : (scanState .scanning ⟨0, 0xFA, 0xFA, 0xF0⟩ 3 0).st = .scanning ∧
    ∃ t, exec (.scanMatch 0xF0) (scanState .scanning ⟨0, 0xFA, 0xFA, 0xF0⟩ 3 0) = .next t :=
  ⟨by decide, _, rfl⟩

theorem witness_DecoderIgnoresScanner : aboutToDeliver.st = .decoding ∧ Instr.payByte 10 ≠ .reset ∧
    ∃ t, exec (.payByte 10) aboutToDeliver = .next t := ⟨by decide, by decide, _, rfl⟩

theorem witness_ScannerIgnoresFrame : aboutToMatch.st = .recovering ∧ Instr.scanMatch 0xF0 ≠ .reset ∧
    ∃ t, exec (.scanMatch 0xF0) aboutToMatch = .next t := ⟨by decide, by decide, _, rfl⟩

theorem witness_ResetOverridesSymbol : ∃ s : State, s.plan = [⟨0, [1]⟩] ∧ (⟨0, [1]⟩ : ResetPlan).after = 0 ∧
    s.input = [0xF0] := ⟨{ aboutToMatch with plan := [⟨0, [1]⟩] }, rfl, rfl, rfl⟩

theorem witness_DoneHoldsForever : finished.st = .done ∧ finished.plan = [] := by decide

theorem scanStart_session (bs : List Byte) : ScanStart (session bs) := ⟨rfl, rfl, rfl⟩

theorem witness_ScanCounters : ScanStart (session [1, 0xFA, 0xFA, 0xF0, 5, 6]) ∧
    (session [1, 0xFA, 0xFA, 0xF0, 5, 6]).plan = [] ∧
    (session [1, 0xFA, 0xFA, 0xF0, 5, 6]).input = [1, 0xFA, 0xFA, 0xF0, 5] ++ [6] ∧
    ¬ Config.syncWord <:+: [1, 0xFA, 0xFA, 0xF0, 5] :=
  ⟨scanStart_session _, rfl, rfl, by decide⟩

theorem witness_ScanFindsLeftmostSync_match : ScanStart (session ([0xFA] ++ Config.syncWord ++ [7])) ∧
    (session ([0xFA] ++ Config.syncWord ++ [7])).plan = [] ∧
    (session ([0xFA] ++ Config.syncWord ++ [7])).input = [0xFA] ++ Config.syncWord ++ [7] ∧
    ¬ Config.syncWord <:+: [0xFA] ++ Config.syncWord.take 3 :=
  ⟨scanStart_session _, rfl, rfl, by decide⟩

theorem witness_ScanFindsLeftmostSync_none : ScanStart (session [0xFA, 0xFA, 0xF0]) ∧
    (session [0xFA, 0xFA, 0xF0]).plan = [] ∧ ¬ Config.syncWord <:+: (session [0xFA, 0xFA, 0xF0]).input :=
  ⟨scanStart_session _, rfl, by decide⟩

theorem witness_MatcherEquivalent : ScanStart (session [0xFA, 0xFA, 0xF0]) ∧
    (session [0xFA, 0xFA, 0xF0]).plan = [] ∧
    (session [0xFA, 0xFA, 0xF0]).input = [0xFA, 0xFA, 0xF0] ++ [] ∧
    matcherRun 0 [0xFA, 0xFA, 0xF0] = some 3 := ⟨scanStart_session _, rfl, rfl, by decide⟩

theorem witness_FrameBufferHoldsInput : ∃ t, steps 5 (session (Config.syncWord ++ [9])) = .next t ∧
    t.st = .decoding ∧ t.cnt.toNat = 5 := ⟨_, rfl, rfl, rfl⟩

theorem witness_EveryShapeIsARun : RunShape [.sync 2, .err .malformed, .sync 0, .err .truncated, .exhausted] :=
  trivial

theorem witness_Encodable_empty : Encodable zeros11 [] := ⟨rfl, Nat.zero_le _⟩

theorem witness_Encodable_longest : Encodable zeros11 (List.replicate 65518 0) :=
  ⟨rfl, by rw [List.length_replicate]⟩

theorem witness_BackToBackFrames : ∀ f ∈ [(zeros11, []), (zeros11, ([1, 2] : List Byte))],
    Encodable f.1 f.2 := by
  intro f hf
  simp only [List.mem_cons, List.not_mem_nil, or_false] at hf
  rcases hf with rfl | rfl <;> exact ⟨rfl, by decide⟩

theorem witness_NoiseTolerated : Encodable zeros11 [] ∧
    ¬ Config.syncWord <:+: [0xFA] ++ [0xFA, 0xFA, 0xF0] := ⟨witness_Encodable_empty, by decide⟩

theorem witness_TruncationReported : Encodable zeros11 [] ∧
    ([0xFA, 0xFA, 0xF0, 0xF0] <+: encodeFrame zeros11 [] ∧ 4 < 17 + ([] : List Byte).length) ∧
    ((encodeFrame zeros11 []).take 16 <+: encodeFrame zeros11 [] ∧
      ((encodeFrame zeros11 []).take 16).length < 17 + ([] : List Byte).length) ∧
    ([0xFA, 0xFA, 0xF0] <+: encodeFrame zeros11 []) := ⟨witness_Encodable_empty, by decide⟩

theorem witness_MalformedLengthRecovered : zeros11.length = 11 ∧ (16 : Byte).toNat < 17 ∧
    (0 : Byte).toNat < 17 := by decide

/-- A window that a scan has filled with its third byte. -/
def threeRead : State := { scanState .scanning ⟨0x77, 0xFA, 0xFA, 0xF0⟩ 3 0 with pos := 3, input := [0xF0] }

theorem witness_HistoryKeptByEveryStep_scan : HistoryInv [0xFA, 0xFA, 0xF0] threeRead ∧
    threeRead.resetIn = false ∧ ∃ t, step threeRead = .next t ∧ t.st = .decoding := by
  refine ⟨⟨rfl, fun _ => ⟨by decide, ?_⟩, fun h => by cases h⟩, rfl, _, rfl, rfl⟩
  intro k hk
  match k, hk with
  | 0, _ => exact ⟨0xF0, rfl, rfl⟩
  | 1, _ => exact ⟨0xFA, rfl, rfl⟩
  | 2, _ => exact ⟨0xFA, rfl, rfl⟩
  | 3, hk => exact absurd hk (by decide)

/-- The scenario S1 at POS 26, its last payload byte presented. -/
def deliverAt26 : State := { aboutToDeliver with pos := 26 }

theorem witness_HistoryKeptByEveryStep_frame : HistoryInv s1Front deliverAt26 ∧
    deliverAt26.resetIn = false ∧ ∃ t, step deliverAt26 = .next t ∧ t.st = .scanning := by
  refine ⟨⟨by decide, fun h => ?_, fun _ => ⟨by decide, by decide⟩⟩, rfl, _, rfl, rfl⟩
  cases h

theorem witness_HistoryKeptByEveryStep_reset : ∃ s : State, HistoryInv [] s ∧ s.resetIn = true ∧
    ∃ t, step s = .next t := by
  refine ⟨{ State.reset with plan := [⟨0, [1]⟩] }, ⟨rfl, fun _ => ⟨by decide, fun k hk => ?_⟩, fun h => ?_⟩,
    rfl, _, rfl⟩
  · exact absurd hk (Nat.not_lt_zero _)
  · cases h

theorem witness_MatcherKeptByScanShift : threeRead.st.isScan = true ∧ MatcherAgrees 3 threeRead ∧
    matcherNext 3 0xFA = some 1 ∧ ∃ t, exec (.scanShift 0xFA) threeRead = .next t :=
  ⟨rfl, ⟨by decide, by decide, fun _ hq _ => hq⟩, by decide, _, rfl⟩

end Sys2Proof.Machine
end

section
/-! The values right after RESET (spec/10_state.md R35). -/

namespace Sys2Proof.Machine

/-- An empty frame buffer holds no value in any cell. -/
@[simp] theorem fbCell_nil (i : Nat) : fbCell [] i = none := rfl

/-- The reset state lists no frame buffer cell. -/
@[simp] theorem reset_fb : State.reset.fb = [] := rfl

/-- After reset every frame buffer cell is unwritten, so it holds no value (R35, R47). -/
theorem fbCell_reset (i : Nat) : fbCell State.reset.fb i = none := by
  rw [reset_fb, fbCell_nil]

/-- Settles O1: each register's row of R35's table is a field of `State.reset`, and the row of FB, which
speaks of every index, is `fbCell_reset`. -/
theorem resetValues : Obligations.ResetValues :=
  ⟨rfl, rfl, rfl, rfl, rfl, rfl, rfl, rfl, fbCell_reset⟩

end Sys2Proof.Machine
end

section
/-! The symbol format (spec/30_encoding.md R61): what the 9 bits of a symbol stand for. -/

namespace Sys2Proof

/-- With bit 8 set the symbol is EOS. -/
theorem symbolOf_of_eos_bit {w : SymbolWord} (h : w.getLsbD 8 = true) : symbolOf w = .eos := if_pos h

/-- With bit 8 clear the symbol is the byte `data`. -/
theorem symbolOf_of_no_eos_bit {w : SymbolWord} (h : w.getLsbD 8 = false) :
    symbolOf w = .byte (w.setWidth 8) :=
  if_neg (Bool.eq_false_iff.1 h)

/-- With bit 8 clear nothing stands above `data`, so the byte is the number the 9 bits are. -/
theorem data_toNat_of_no_eos_bit {w : SymbolWord} (h : w.getLsbD 8 = false) :
    (w.setWidth 8).toNat = w.toNat := by
  have hlt : 2 * w.toNat < 2 ^ 9 := BitVec.msb_eq_false_iff_two_mul_lt.1 h
  rw [BitVec.toNat_setWidth, Nat.mod_eq_of_lt (by omega)]

/-- `data` is the low 8 bits of the symbol, in place. -/
theorem data_getLsbD (w : SymbolWord) {i : Nat} (hi : i < 8) :
    (w.setWidth 8).getLsbD i = w.getLsbD i := by
  rw [BitVec.getLsbD_setWidth, decide_eq_true hi, Bool.true_and]

/-- The encoding of a symbol reads back as the symbol. -/
theorem symbolOf_word (y : Symbol) : symbolOf y.word = y := by
  cases y with
  | byte b => exact Laws.EncodeFormat.symbolOf_byte b
  | eos => exact symbolOf_of_eos_bit rfl

/-- The decoder sees a word only through the symbol it stands for. -/
theorem decode_congr_symbolOf {w v : SymbolWord} (h : symbolOf w = symbolOf v) (r : Bool) (c : Ctx) :
    decode r c w = decode r c v := by
  unfold decode
  rw [h]

/-- Settles O2: one clause per value of bit 8, the read-back of an encoding, and `decode_congr_symbolOf` for
two words that both stand for EOS. -/
theorem symbolFormatTotal : Obligations.SymbolFormatTotal := by
  refine ⟨fun w h => symbolOf_of_eos_bit h, fun w h => ?byte, symbolOf_word, fun r c w v hw hv => ?ignored⟩
  case byte =>
    exact ⟨w.setWidth 8, symbolOf_of_no_eos_bit h, data_toNat_of_no_eos_bit h, fun _ hi => data_getLsbD w hi⟩
  case ignored =>
    have hsame : symbolOf w = symbolOf v := by rw [symbolOf_of_eos_bit hw, symbolOf_of_eos_bit hv]
    exact decode_congr_symbolOf hsame r c

end Sys2Proof
end

section
/-! The status channel (spec/30_encoding.md R67): the code of each event, once per constructor. -/

namespace Sys2Proof.Machine

@[simp] theorem causeCode_truncated : causeCode .truncated = 1 := rfl

@[simp] theorem causeCode_malformed : causeCode .malformed = 2 := rfl

/-- SYNC is code 0 and the only event with a count. -/
@[simp] theorem statusOf_sync (k : SkipCount) : statusOf (.sync k) = some (0, some k) := rfl

/-- A MSG does not go out on the status channel. -/
@[simp] theorem statusOf_msg (raw : List Byte) (t : Word) : statusOf (.msg raw t) = none := rfl

/-- An ERR's code is the code of its cause (R121). -/
@[simp] theorem statusOf_err (k : FailureKind) : statusOf (.err k) = some (causeCode k, none) := rfl

@[simp] theorem statusOf_exhausted : statusOf .exhausted = some (3, none) := rfl

/-- Settles O24: the table of R67 row by row; the two ERR rows are `statusOf_err` at the cause's code. -/
theorem statusCodes : Obligations.StatusCodes := by
  have htruncated : statusOf (.err .truncated) = some (1, none) := by
    rw [statusOf_err, causeCode_truncated]
  have hmalformed : statusOf (.err .malformed) = some (2, none) := by
    rw [statusOf_err, causeCode_malformed]
  exact ⟨statusOf_sync, htruncated, hmalformed, statusOf_exhausted, statusOf_msg, statusOf_err⟩

end Sys2Proof.Machine
end

section
/-! The scanner (spec/40_scanner.md): the match test as a comparison of the shifted window, and what each of
the three scan operations answers where its row of the map holds. -/

namespace Sys2Proof

/-- The window that holds the sync word. -/
def Window.sync : Window := ⟨0xFA, 0xFA, 0xF0, 0xF0⟩

/-- The comparison is exact: one window passes it (R45 (d), R81). -/
theorem isSync_iff (w : Window) : w.isSync = true ↔ w = .sync := by
  obtain ⟨a, b, c, d⟩ := w
  simp only [Window.isSync, Window.sync, Bool.and_eq_true, beq_iff_eq, Window.mk.injEq, and_assoc]

/-- The match test holds exactly when the shift fills the window and leaves the sync word in it. -/
theorem matchAfter_iff (w : Window) (n : FillCount) (b : Byte) :
    matchAfter w n b = true ↔ fillNext n = 4 ∧ w.shift b = .sync := by
  rw [matchAfter, Bool.and_eq_true, beq_iff_eq, isSync_iff]

/-- The window holds the sync word after a shift when its three newest bytes and the byte are the sync word. -/
theorem shift_eq_sync_iff (w : Window) (b : Byte) :
    w.shift b = .sync ↔ w.w1 = 0xFA ∧ w.w2 = 0xFA ∧ w.w3 = 0xF0 ∧ b = 0xF0 := by
  simp only [Window.shift, Window.sync, Window.mk.injEq]

namespace Machine

/-- The fill count after a shift is 4 exactly when its number is. -/
theorem fillNext_eq_four_iff (n : FillCount) : fillNext n = 4 ↔ min 4 (n.toNat + 1) = 4 := by
  rw [← fillNext_toNat]
  exact BitVec.toNat_inj.symm

/-- R81's form of the match test: the count and the four bytes compared. -/
theorem matchAfter_iff_bytes (w : Window) (n : FillCount) (b : Byte) :
    matchAfter w n b = true ↔
      min 4 (n.toNat + 1) = 4 ∧ w.w1 = 0xFA ∧ w.w2 = 0xFA ∧ w.w3 = 0xF0 ∧ b = 0xF0 := by
  rw [matchAfter_iff, fillNext_eq_four_iff, shift_eq_sync_iff]

/-- Only the last byte of the sync word completes it. -/
theorem matchAfter_of_ne_last {w : Window} {n : FillCount} {b : Byte} (hb : b ≠ 0xF0) :
    matchAfter w n b = false := by
  rw [← Bool.not_eq_true, matchAfter_iff_bytes]
  rintro ⟨-, -, -, -, hlast⟩
  exact hb hlast

/-- The first three bytes of a scan do not match, whatever the window held before it. -/
theorem matchAfter_of_not_filled {w : Window} {n : FillCount} {b : Byte} (hn : n.toNat < 3) :
    matchAfter w n b = false := by
  rw [← Bool.not_eq_true, matchAfter_iff_bytes]
  rintro ⟨hfull, -⟩
  omega

/-- Settles O10: R81's form of the test, and its two consequences, each from a conjunct that fails. -/
theorem matchTestExact : Obligations.MatchTestExact := fun w n b =>
  ⟨matchAfter_iff_bytes w n b, matchAfter_of_ne_last, matchAfter_of_not_filled⟩

/-! ### What the scan operations answer -/

/-- The discard count after a byte is shifted in: one more if the window was full (R24). -/
def State.skipCounted (s : State) : SkipCount := if s.wcnt.toNat = 4 then satSucc s.skip else s.skip

/-- In a scan state the shift's count is readable, and is `skipCounted`. -/
theorem skipAfterShift_eq {s : State} (hscan : s.st.isScan = true) :
    s.skipAfterShift = .ok s.skipCounted := skipAfterShift_of_scan hscan

/-- As a number, with the saturation written out (R24). -/
theorem skipCounted_toNat (s : State) : s.skipCounted.toNat =
    if s.wcnt.toNat = 4 then min (s.skip.toNat + 1) (2 ^ 64 - 1) else s.skip.toNat := by
  rw [State.skipCounted, apply_ite BitVec.toNat, satSucc_toNat]

theorem exec_scanShift (b : Byte) (s : State) : exec (.scanShift b) s = execScanShift b s := rfl

theorem exec_scanMatch (b : Byte) (s : State) : exec (.scanMatch b) s = execScanMatch b s := rfl

theorem exec_scanEos (s : State) : exec .scanEos s = execScanEos s := rfl

/-- SCAN.SHIFT answers in its row: the converse of `execScanShift_next`. -/
theorem execScanShift_of_row {b : Byte} {s : State} (hscan : s.st.isScan = true)
    (hm : matchAfter s.win s.wcnt b = false) :
    execScanShift b s = .next { s with
      win := s.win.shift b
      wcnt := fillNext s.wcnt
      skip := s.skipCounted
      pos := s.pos + 1 } := by
  rw [execScanShift, whenSelected_of_row (row_scanShift.2 ⟨hscan, hm⟩), skipAfterShift_eq hscan, orFault_ok]
  rfl

/-- SCAN.MATCH answers in its row: the converse of `execScanMatch_next`. -/
theorem execScanMatch_of_row {b : Byte} {s : State} (hscan : s.st.isScan = true)
    (hm : matchAfter s.win s.wcnt b = true) :
    execScanMatch b s = .next (State.beginFrame { s with
      win := s.win.shift b
      wcnt := fillNext s.wcnt
      skip := s.skipCounted
      pos := s.pos + 1
      out := s.out ++ [.sync s.skipCounted] }) := by
  rw [execScanMatch, whenSelected_of_row (row_scanMatch.2 ⟨hscan, hm⟩), skipAfterShift_eq hscan, orFault_ok]
  rfl

/-- SCAN.EOS answers in its row: the converse of `execScanEos_next`. -/
theorem execScanEos_of_row {s : State} (hscan : s.st.isScan = true) :
    execScanEos s = .next { s with out := s.out ++ [.exhausted], st := .done } := by
  rw [execScanEos, whenSelected_of_row (row_scanEos.2 hscan)]
  rfl

/-! ### The frame buffer at the start of a decode attempt -/

/-- The four stores of R83, read back cell by cell. -/
theorem fbCell_beginFrame (s : State) (a : Nat) : fbCell s.beginFrame.fb a =
    if a = 3 then some 0xF0 else if a = 2 then some 0xF0 else if a = 1 then some 0xFA
      else if a = 0 then some 0xFA else fbCell s.fb a := by
  simp only [State.beginFrame_fb, fbCell_fbPut]

/-- From index 4 on no cell is stored to. -/
theorem fbCell_beginFrame_of_le (s : State) {a : Nat} (ha : 4 ≤ a) :
    fbCell s.beginFrame.fb a = fbCell s.fb a := by
  rw [fbCell_beginFrame, if_neg (by omega), if_neg (by omega), if_neg (by omega), if_neg (by omega)]

/-- The four stores keep the canonical form. -/
theorem wf_beginFrame {s : State} (h : Memory.wf s.fb = true) : Memory.wf s.beginFrame.fb = true := by
  rw [State.beginFrame_fb]
  exact wf_fbPut _ (by decide) (wf_fbPut _ (by decide) (wf_fbPut _ (by decide) (wf_fbPut _ (by decide) h)))

/-! ### The obligations -/

/-- Settles O11: `execScanShift_of_row`, with the count and the discard count read as numbers. -/
theorem scanShiftEffect : Obligations.ScanShiftEffect := by
  intro b s hst hm
  have hscan : s.st.isScan = true := (isScan_iff s.st).2 hst
  refine ⟨s.skipCounted, fillNext s.wcnt, skipCounted_toNat s, fillNext_toNat s.wcnt, ?_⟩
  rw [exec_scanShift, execScanShift_of_row hscan hm]
  rfl

/-- Settles O12: `execScanMatch_of_row`, where the match test fixes the shifted window and the fill count, and
FB is that of `beginFrame`. -/
theorem scanMatchEffect : Obligations.ScanMatchEffect := by
  intro b s hst hm
  have hscan : s.st.isScan = true := (isScan_iff s.st).2 hst
  obtain ⟨hfull, hwin⟩ := (matchAfter_iff s.win s.wcnt b).1 hm
  refine ⟨s.skipCounted, s.beginFrame.fb, skipCounted_toNat s, fbCell_beginFrame s 0,
    fbCell_beginFrame s 1, fbCell_beginFrame s 2, fbCell_beginFrame s 3,
    fun _ ha => fbCell_beginFrame_of_le s ha, wf_beginFrame, ?_⟩
  rw [exec_scanMatch, execScanMatch_of_row hscan hm, hfull, hwin]
  rfl

/-- Settles O13: `execScanEos_of_row` in either scan state. -/
theorem scanEosEffect : Obligations.ScanEosEffect := by
  intro s hst
  rw [exec_scanEos, execScanEos_of_row ((isScan_iff s.st).2 hst)]

end Machine

end Sys2Proof
end

section
/-! The frame decoder (spec/41_frame_decoder.md): what each of its five operations answers where its row of
the map holds, and the Message bytes as one read of the frame buffer. -/

namespace Sys2Proof.Machine

theorem exec_hdrByte (b : Byte) (s : State) : exec (.hdrByte b) s = execHdrByte b s := rfl

theorem exec_lenHi (b : Byte) (s : State) : exec (.lenHi b) s = execLenHi b s := rfl

theorem exec_lenLo (b : Byte) (s : State) : exec (.lenLo b) s = execLenLo b s := rfl

theorem exec_payByte (b : Byte) (s : State) : exec (.payByte b) s = execPayByte b s := rfl

theorem exec_decEos (s : State) : exec .decEos s = execDecEos s := rfl

/-! ### What the decode operations answer -/

/-- HDR.BYTE answers in its row: the converse of `execHdrByte_next`. -/
theorem execHdrByte_of_row {b : Byte} {s : State} (hst : s.st = .decoding)
    (hlo : 4 ≤ s.cnt.toNat) (hhi : s.cnt.toNat ≤ 14) :
    execHdrByte b s = .next { s with
      fb := fbPut s.fb s.cnt.toNat b, cnt := s.cnt + 1, pos := s.pos + 1 } := by
  rw [execHdrByte, whenSelected_of_row (row_hdrByte.2 ⟨hst, hlo, hhi⟩), memWrite_eq s b (by omega), orFault_ok]
  rfl

/-- LEN.HI answers in its row: the converse of `execLenHi_next`. -/
theorem execLenHi_of_row {b : Byte} {s : State} (hst : s.st = .decoding) (hcnt : s.cnt.toNat = 15) :
    execLenHi b s = .next { s with fb := fbPut s.fb 15 b, cnt := 16, pos := s.pos + 1 } := by
  rw [execLenHi, whenSelected_of_row (row_lenHi.2 ⟨hst, hcnt⟩), Config.sundry_lenOff,
    memWrite_eq s b (by decide), orFault_ok]
  rfl

/-- LEN.LO's state before the range check: the low byte stored and consumed, `total_size` decoded (R93). -/
def State.lenDecoded (s : State) (hi b : Byte) : State :=
  { s with fb := fbPut s.fb 16 b, tsize := assembleTotalSize hi b, pos := s.pos + 1 }

/-- LEN.LO in its row, where FB[15] holds a byte, is the range check of R93: only its middle branch reads more
of the frame buffer. -/
theorem execLenLo_of_row {b hi : Byte} {s : State} (hst : s.st = .decoding) (hcnt : s.cnt.toNat = 16)
    (hhi : fbCell s.fb 15 = some hi) :
    execLenLo b s =
      if (assembleTotalSize hi b).toNat < 17 then .next ((s.lenDecoded hi b).raise .malformed)
      else if (assembleTotalSize hi b).toNat = 17 then
        orFault (s.memRead 0 16) fun front =>
          .next ((s.lenDecoded hi b).deliver (front ++ [b]) (assembleTotalSize hi b))
      else .next { s.lenDecoded hi b with cnt := 17 } := by
  have hread : s.readFb 15 = .ok hi := readFb_ok.2 ⟨hst, by omega, hhi⟩
  rw [execLenLo, whenSelected_of_row (row_lenLo.2 ⟨hst, hcnt⟩), Config.sundry_lenOff, hread, orFault_ok,
    memWrite_eq s b (by decide), orFault_ok]
  rfl

/-- PAY.BYTE in its row, at an index FB has, is the test for the frame's last byte (R94). -/
theorem execPayByte_of_row {b : Byte} {s : State} (hst : s.st = .decoding) (hlo : 17 ≤ s.cnt.toNat)
    (hhi : s.cnt.toNat < 65535) :
    execPayByte b s =
      if s.cnt.toNat + 1 = s.tsize.toNat then
        orFault (s.memRead 0 s.cnt.toNat) fun front =>
          .next (State.deliver { s with fb := fbPut s.fb s.cnt.toNat b, pos := s.pos + 1 }
            (front ++ [b]) s.tsize)
      else .next { s with fb := fbPut s.fb s.cnt.toNat b, pos := s.pos + 1, cnt := s.cnt + 1 } := by
  rw [execPayByte, whenSelected_of_row (row_payByte.2 ⟨hst, hlo⟩), readTsize_of_payload hst hlo, orFault_ok,
    memWrite_eq s b hhi, orFault_ok]
  rfl

/-- DEC.EOS answers in its row: the converse of `execDecEos_next`. -/
theorem execDecEos_of_row {s : State} (hst : s.st = .decoding) :
    execDecEos s = .next (s.raise .truncated) := by
  rw [execDecEos, whenSelected_of_row (row_decEos.2 hst)]

/-- In Decoding, where the cells below CNT hold a list of CNT bytes, reading them all answers the list: the
captured part of a Message. -/
theorem memRead_of_holdsBytes {s : State} {front : List Byte} (hst : s.st = .decoding)
    (hlen : front.length = s.cnt.toNat) (hfront : HoldsBytes s.fb front) :
    s.memRead 0 s.cnt.toNat = .ok front := by
  rw [← hlen]
  exact memRead_of_cells hst hlen.le hfront

/-- In Decoding, `CNT < TSIZE` keeps a payload byte's index inside FB, since TSIZE has 16 bits (R50). -/
theorem cnt_lt_of_lt_tsize {s : State} (h : s.cnt.toNat < s.tsize.toNat) : s.cnt.toNat < 65535 := by
  have htsize : s.tsize.toNat < 65536 := s.tsize.isLt
  omega

/-! ### The obligations -/

/-- Settles O14: `execHdrByte_of_row`, with the store at CNT read back. -/
theorem hdrByteEffect : Obligations.HdrByteEffect := by
  intro b s hst hlo hhi
  refine ⟨fbPut s.fb s.cnt.toNat b, fun a => fbCell_fbPut s.fb s.cnt.toNat a b, wf_fbPut b (by omega), ?_⟩
  rw [exec_hdrByte, execHdrByte_of_row hst hlo hhi]

/-- Settles O15: `execLenHi_of_row`, with the store at index 15 read back. -/
theorem lenHiEffect : Obligations.LenHiEffect := by
  intro b s hst hcnt
  refine ⟨fbPut s.fb 15 b, fun a => fbCell_fbPut s.fb 15 a b, wf_fbPut b (by decide), ?_⟩
  rw [exec_lenHi, execLenHi_of_row hst hcnt]

/-- Settles O16: the branches of the range check in `execLenLo_of_row`, one per clause; in the middle one
FB[0..15] is read and the decoded `total_size` is 17. -/
theorem lenLoEffect : Obligations.LenLoEffect := by
  intro b hi s hst hcnt hhi
  refine ⟨fbPut s.fb 16 b, assembleTotalSize hi b, fun a => fbCell_fbPut s.fb 16 a b, wf_fbPut b (by decide),
    assembleTotalSize_toNat hi b, fun hlt => ?malformed, fun heq front hlen hfront => ?message,
    fun hgt => ?payload⟩ <;> rw [exec_lenLo, execLenLo_of_row hst hcnt hhi]
  case malformed =>
    rw [if_pos hlt, raise_eq]
    rfl
  case message =>
    have hread : s.memRead 0 16 = .ok front := by
      rw [← hcnt]
      exact memRead_of_holdsBytes hst (hlen.trans hcnt.symm) hfront
    have h17 : assembleTotalSize hi b = 17 := BitVec.eq_of_toNat_eq heq
    rw [if_neg (by omega), if_pos heq, hread, orFault_ok, deliver_eq, h17, State.lenDecoded, h17]
  case payload =>
    rw [if_neg (by omega), if_neg (by omega)]
    rfl

/-- Settles O17: the two branches of `execPayByte_of_row`; on the frame's last byte FB[0..CNT-1] is read. -/
theorem payByteEffect : Obligations.PayByteEffect := by
  intro b s hst hlo hlt
  have hhi : s.cnt.toNat < 65535 := cnt_lt_of_lt_tsize hlt
  refine ⟨fbPut s.fb s.cnt.toNat b, fun a => fbCell_fbPut s.fb s.cnt.toNat a b, wf_fbPut b hhi,
    fun hlast front hlen hfront => ?last, fun hmore => ?more⟩ <;>
    rw [exec_payByte, execPayByte_of_row hst hlo hhi]
  case last =>
    rw [if_pos hlast, memRead_of_holdsBytes hst hlen hfront, orFault_ok, deliver_eq]
  case more =>
    rw [if_neg hmore]

/-- Settles O18: the failure entry of Truncated, written out by `raise_eq`. -/
theorem decEosEffect : Obligations.DecEosEffect := by
  intro s hst
  rw [exec_decEos, execDecEos_of_row hst, raise_eq]

end Sys2Proof.Machine
end

section
/-! The control state machine (spec/42_control_fsm.md): what a selected operation says about the presented
symbol and the reset input, and the rows of the transition table. -/

namespace Sys2Proof

/-- The symbol an operation samples: its byte (format B), EOS (format E), none (format X) (R61, R69). -/
def Instr.sampled : Instr → Option Symbol
  | .scanShift b | .scanMatch b | .hdrByte b | .lenHi b | .lenLo b | .payByte b => some (.byte b)
  | .scanEos | .decEos => some .eos
  | .doneHold | .reset => none

/-- Whatever its CNT selects, a byte in Decoding is the byte sampled. -/
theorem sampled_decodeFrameByte (n : Nat) (b : Byte) : (decodeFrameByte n b).sampled = some (.byte b) := by
  unfold decodeFrameByte
  split_ifs <;> rfl

/-- An operation selected in Decoding samples the symbol that selected it. -/
theorem sampled_of_decodeInFrame {n : Nat} {y : Symbol} {i : Instr} (h : decodeInFrame n y = .ok i) :
    i.sampled = some y := by
  by_cases hn : n < 4
  · rw [decodeInFrame_refused y hn] at h
    cases h
  · cases y with
    | eos =>
      rw [decodeInFrame_eos (by omega)] at h
      cases h
      rfl
    | byte b =>
      rw [decodeInFrame_byte b (by omega)] at h
      cases h
      exact sampled_decodeFrameByte n b

/-- Without the reset input, an operation is DONE.HOLD or samples the symbol that selected it (R70). -/
theorem sampled_of_decodeSymbol {c : Ctx} {y : Symbol} {i : Instr} (h : decodeSymbol c y = .ok i) :
    i = .doneHold ∨ i.sampled = some y := by
  unfold decodeSymbol at h
  split at h
  case h_1 => cases h; exact .inl rfl
  case h_2 => exact .inr (sampled_of_decodeInFrame h)
  all_goals
    cases y with
    | eos => cases h; exact .inr rfl
    | byte b => dsimp only at h; split at h <;> cases h <;> exact .inr rfl

/-- The reset input selects RESET in every context, whatever the symbol (R71, R108). -/
theorem decode_of_resetIn (c : Ctx) (w : SymbolWord) : decode true c w = .ok .reset := rfl

namespace Machine

/-- What a step performs: RESET under the reset input, and otherwise what the presented symbol selects. -/
theorem fetch_eq (s : State) :
    s.fetch = if s.resetIn then .ok .reset else decodeSymbol s.ctx s.presented := by
  rw [State.fetch, decode, symbolOf_word]

/-- A performed operation that samples a symbol samples the presented one. -/
theorem presented_of_fetch {s : State} {i : Instr} {y : Symbol} (h : s.fetch = .ok i)
    (hy : i.sampled = some y) : s.presented = y := by
  rw [fetch_eq] at h
  split at h
  · cases h
    cases hy
  · obtain rfl | hsampled := sampled_of_decodeSymbol h
    · cases hy
    · exact Option.some.inj (hsampled.symm.trans hy)

/-- RESET is performed only under the reset input (R108). -/
theorem resetIn_of_fetch {s : State} (h : s.fetch = .ok .reset) : s.resetIn = true := by
  rw [fetch_eq] at h
  split at h
  · assumption
  · obtain hreset | hsampled := sampled_of_decodeSymbol h
    · cases hreset
    · cases hsampled

theorem exec_reset (s : State) : exec .reset s = execReset s := rfl

/-- RESET answers in every state: the converse of `execReset_next`. -/
theorem execReset_eq (s : State) : execReset s = .next { s with
    st := .scanning, wcnt := 0, win := ⟨0, 0, 0, 0⟩, skip := 0, cnt := 0, tsize := 0, pos := 0 } := by
  rw [execReset, whenSelected_of_row row_reset]

/-- Settles O20: RESET's row holds in every state (`execReset_eq`), and the reset input is the decoder's first
test. -/
theorem resetEffect : Obligations.ResetEffect := by
  refine fun s => ⟨?_, decode_of_resetIn⟩
  rw [exec_reset, execReset_eq]

/-! ### The rows with a condition -/

/-- LEN.LO's three rows (R105), by the size that FB[15] and the byte assemble to. -/
theorem execLenLo_rows {b : Byte} {s t : State} (h : execLenLo b s = .next t) :
    s.st = .decoding ∧ s.cnt.toNat = 16 ∧ ∃ hi, fbCell s.fb 15 = some hi ∧
      (256 * hi.toNat + b.toNat < 17 → t.st = .recovering ∧ t.out = s.out ++ [.err .malformed]) ∧
      (256 * hi.toNat + b.toNat = 17 → t.st = .scanning ∧ ∃ raw, t.out = s.out ++ [.msg raw 17]) ∧
      (17 < 256 * hi.toNat + b.toNat → t.st = .decoding ∧ t.out = s.out) := by
  obtain ⟨hst, hcnt, hi, hfb, hcases⟩ := execLenLo_next h
  rw [assembleTotalSize_toNat] at hcases
  refine ⟨hst, hcnt, hi, hfb, ?_⟩
  obtain ⟨hlt, rfl⟩ | ⟨heq, front, -, rfl⟩ | ⟨hgt, rfl⟩ := hcases
  · exact ⟨fun _ => ⟨rfl, rfl⟩, fun _ => by omega, fun _ => by omega⟩
  · have h17 : assembleTotalSize hi b = 17 :=
      BitVec.eq_of_toNat_eq ((assembleTotalSize_toNat hi b).trans heq)
    exact ⟨fun _ => by omega, fun _ => ⟨rfl, front ++ [b], by rw [State.deliver_out, h17]⟩, fun _ => by omega⟩
  · exact ⟨fun _ => by omega, fun _ => by omega, fun _ => ⟨hst, rfl⟩⟩

/-- PAY.BYTE's two rows (R105), by whether the byte is the frame's last. -/
theorem execPayByte_rows {b : Byte} {s t : State} (h : execPayByte b s = .next t) :
    s.st = .decoding ∧ 17 ≤ s.cnt.toNat ∧
      (s.cnt.toNat + 1 < s.tsize.toNat → t.st = .decoding ∧ t.out = s.out) ∧
      (s.cnt.toNat + 1 = s.tsize.toNat → t.st = .scanning ∧ ∃ raw, t.out = s.out ++ [.msg raw s.tsize]) := by
  obtain ⟨hst, hcnt, -, hcases⟩ := execPayByte_next h
  refine ⟨hst, hcnt, ?_⟩
  obtain ⟨hlast, front, -, rfl⟩ | ⟨hmore, rfl⟩ := hcases
  · exact ⟨fun _ => by omega, fun _ => ⟨rfl, front ++ [b], rfl⟩⟩
  · exact ⟨fun _ => ⟨hst, rfl⟩, fun hlast => absurd hlast hmore⟩

/-- Settles O35: the operation performed has its row's answer by its inversion lemma, its row's symbol by
`presented_of_fetch`, and the environment's move touches neither ST, SKIP nor the events. -/
theorem transitionTable : Obligations.TransitionTable := by
  intro s u hstep
  obtain ⟨i, t, hfetch, hexec, rfl⟩ := step_next hstep
  refine ⟨i, hfetch, ?_⟩
  have hsym {y : Symbol} : i.sampled = some y → s.presented = y := presented_of_fetch hfetch
  cases i <;> simp only [State.advanceEnv_st, State.advanceEnv_out, State.advanceEnv_skip]
  case scanShift b =>
    obtain ⟨hscan, hmatch, rfl⟩ := execScanShift_next hexec
    exact ⟨(isScan_iff s.st).1 hscan, hsym rfl, hmatch, rfl, rfl⟩
  case scanMatch b =>
    obtain ⟨hscan, hmatch, rfl⟩ := execScanMatch_next hexec
    exact ⟨(isScan_iff s.st).1 hscan, hsym rfl, hmatch, rfl, rfl⟩
  case scanEos =>
    obtain ⟨hscan, rfl⟩ := execScanEos_next hexec
    exact ⟨(isScan_iff s.st).1 hscan, hsym rfl, rfl, rfl⟩
  case hdrByte b =>
    obtain ⟨hst, hlo, hhi, rfl⟩ := execHdrByte_next hexec
    exact ⟨hst, hsym rfl, hlo, hhi, hst, rfl⟩
  case lenHi b =>
    obtain ⟨hst, hcnt, rfl⟩ := execLenHi_next hexec
    exact ⟨hst, hsym rfl, hcnt, hst, rfl⟩
  case lenLo b =>
    obtain ⟨hst, hrows⟩ := execLenLo_rows hexec
    exact ⟨hst, hsym rfl, hrows⟩
  case payByte b =>
    obtain ⟨hst, hrows⟩ := execPayByte_rows hexec
    exact ⟨hst, hsym rfl, hrows⟩
  case decEos =>
    obtain ⟨hst, rfl⟩ := execDecEos_next hexec
    exact ⟨hst, hsym rfl, rfl, rfl⟩
  case doneHold =>
    obtain ⟨hst, rfl⟩ := execDoneHold_next hexec
    exact ⟨hst, hst, rfl⟩
  case reset =>
    obtain rfl := execReset_next hexec
    exact ⟨resetIn_of_fetch hfetch, rfl, rfl⟩

end Machine

end Sys2Proof
end

section
/-! Decode failures and the status events (spec/60_exceptions.md): the failure entry, which event each operation
raises, and when the operations that raise one are performed. -/

namespace Sys2Proof.Machine

/-- Settles O21: the failure entry written out by `raise_eq`, the same for both kinds. -/
theorem failureEntryEffect : Obligations.FailureEntryEffect := fun s k => raise_eq s k

/-! ### What an operation raises -/

/-- The event of the status channel an operation raises in a state: the "raised by" column of R121. -/
def State.statusRaised (s : State) : Instr → Option Event
  | .scanMatch _ => some (.sync s.skipCounted)
  | .scanEos => some .exhausted
  | .decEos => some (.err .truncated)
  | .lenLo b => (fbCell s.fb 15).bind fun hi =>
      if 256 * hi.toNat + b.toNat < 17 then some (.err .malformed) else none
  | .scanShift _ | .hdrByte _ | .lenHi _ | .payByte _ | .doneHold | .reset => none

/-- LEN.LO raises by its range check, once FB[15] is known. -/
theorem statusRaised_lenLo {s : State} {hi : Byte} (b : Byte) (hfb : fbCell s.fb 15 = some hi) :
    s.statusRaised (.lenLo b) =
      if 256 * hi.toNat + b.toNat < 17 then some (.err .malformed) else none := by
  rw [State.statusRaised, hfb, Option.bind_some]

/-- LEN.LO raises nothing but Malformed. -/
theorem statusRaised_lenLo_eq_some_iff {s : State} {b : Byte} {e : Event} :
    s.statusRaised (.lenLo b) = some e ↔
      ∃ hi, fbCell s.fb 15 = some hi ∧ 256 * hi.toNat + b.toNat < 17 ∧ .err .malformed = e := by
  simp only [State.statusRaised, Option.bind_eq_some_iff, Option.ite_none_right_eq_some, Option.some.injEq]

theorem statusRaised_eq_truncated_iff {s : State} {i : Instr} :
    s.statusRaised i = some (.err .truncated) ↔ i = .decEos := by
  cases i with
  | lenLo b => simp [statusRaised_lenLo_eq_some_iff]
  | _ => simp [State.statusRaised]

theorem statusRaised_eq_exhausted_iff {s : State} {i : Instr} :
    s.statusRaised i = some .exhausted ↔ i = .scanEos := by
  cases i with
  | lenLo b => simp [statusRaised_lenLo_eq_some_iff]
  | _ => simp [State.statusRaised]

theorem statusRaised_eq_sync_iff {s : State} {i : Instr} :
    (∃ k, s.statusRaised i = some (.sync k)) ↔ ∃ b, i = .scanMatch b := by
  cases i with
  | lenLo b => simp [statusRaised_lenLo_eq_some_iff]
  | _ => simp [State.statusRaised]

theorem statusRaised_eq_malformed_iff {s : State} {i : Instr} :
    s.statusRaised i = some (.err .malformed) ↔
      ∃ hi b, i = .lenLo b ∧ fbCell s.fb 15 = some hi ∧ 256 * hi.toNat + b.toNat < 17 := by
  cases i with
  | lenLo b => simp [statusRaised_lenLo_eq_some_iff]
  | _ => simp [State.statusRaised]

/-- The events an operation adds: the one of the status channel it raises, or in its place a MSG. -/
theorem exec_out {i : Instr} {s t : State} (h : exec i s = .next t) :
    t.out = s.out ++ (s.statusRaised i).toList ∨
      s.statusRaised i = none ∧ ∃ raw n, t.out = s.out ++ [.msg raw n] := by
  have hkeep : s.statusRaised i = none → t.out = s.out →
      t.out = s.out ++ (s.statusRaised i).toList := fun hnone hout => by
    rw [hnone, hout, Option.toList_none, List.append_nil]
  cases i with
  | scanShift b =>
    obtain ⟨-, -, rfl⟩ := execScanShift_next h
    exact .inl (hkeep rfl rfl)
  | scanMatch b =>
    obtain ⟨-, -, rfl⟩ := execScanMatch_next h
    exact .inl rfl
  | scanEos =>
    obtain ⟨-, rfl⟩ := execScanEos_next h
    exact .inl rfl
  | hdrByte b =>
    obtain ⟨-, -, -, rfl⟩ := execHdrByte_next h
    exact .inl (hkeep rfl rfl)
  | lenHi b =>
    obtain ⟨-, -, rfl⟩ := execLenHi_next h
    exact .inl (hkeep rfl rfl)
  | lenLo b =>
    obtain ⟨-, -, hi, hfb, hshort, hwhole, hlong⟩ := execLenLo_rows h
    have hraised := statusRaised_lenLo b hfb
    obtain hlt | heq | hgt := lt_trichotomy (256 * hi.toNat + b.toNat) 17
    · rw [if_pos hlt] at hraised
      rw [hraised]
      exact .inl (hshort hlt).2
    · obtain ⟨-, raw, hout⟩ := hwhole heq
      exact .inr ⟨hraised.trans (if_neg heq.not_lt), raw, 17, hout⟩
    · exact .inl (hkeep (hraised.trans (if_neg hgt.not_gt)) (hlong hgt).2)
  | payByte b =>
    obtain ⟨-, -, -, ⟨-, front, -, rfl⟩ | ⟨-, rfl⟩⟩ := execPayByte_next h
    · exact .inr ⟨rfl, front ++ [b], s.tsize, rfl⟩
    · exact .inl (hkeep rfl rfl)
  | decEos =>
    obtain ⟨-, rfl⟩ := execDecEos_next h
    exact .inl rfl
  | doneHold =>
    obtain ⟨-, rfl⟩ := execDoneHold_next h
    exact .inl (hkeep rfl rfl)
  | reset =>
    obtain rfl := execReset_next h
    exact .inl (hkeep rfl rfl)

/-- An operation adds an event of the status channel exactly when it is the one it raises. -/
theorem exec_out_eq_append_iff {i : Instr} {s t : State} {e : Event} (h : exec i s = .next t)
    (he : (statusOf e).isSome) : t.out = s.out ++ [e] ↔ s.statusRaised i = some e := by
  obtain hout | ⟨hnone, raw, n, hout⟩ := exec_out h
  · rw [hout, List.append_cancel_left_eq, Option.toList_eq_singleton_iff]
  · have hmsg : Event.msg raw n ≠ e := by
      rintro rfl
      cases he
    simp [hout, hnone, hmsg]

/-- LEN.LO leaves the decoded size in TSIZE, on every outcome of the range check (R93). -/
theorem execLenLo_tsize {b hi : Byte} {s t : State} (h : execLenLo b s = .next t)
    (hfb : fbCell s.fb 15 = some hi) : t.tsize.toNat = 256 * hi.toNat + b.toNat := by
  obtain ⟨-, -, hi', hfb', hcases⟩ := execLenLo_next h
  obtain rfl : hi = hi' := Option.some.inj (hfb.symm.trans hfb')
  rw [← assembleTotalSize_toNat]
  obtain ⟨-, rfl⟩ | ⟨-, front, -, rfl⟩ | ⟨-, rfl⟩ := hcases <;> rfl

/-! ### When the raising operations are performed -/

/-- If an operation answers, its row of the map holds (R70). -/
theorem row_of_exec {i : Instr} {s t : State} (h : exec i s = .next t) : i.row s.ctx = true := by
  cases i with
  | reset => exact row_reset
  | _ => exact (whenSelected_next h).1

/-- Any other operation than RESET is performed only without the reset input. -/
theorem resetIn_eq_false_of_fetch {s : State} {i : Instr} (h : s.fetch = .ok i) (hi : i ≠ .reset) :
    s.resetIn = false := by
  rw [fetch_eq] at h
  split at h
  · cases h
    exact absurd rfl hi
  · exact Bool.eq_false_of_not_eq_true ‹_›

/-- Without the reset input, the state and the presented symbol select. -/
theorem fetch_of_not_resetIn {s : State} (h : s.resetIn = false) :
    s.fetch = decodeSymbol s.ctx s.presented := by
  rw [fetch_eq, h]
  rfl

/-- In Decoding the selection is by CNT (R70). -/
theorem decodeSymbol_of_decoding {c : Ctx} (h : c.st = .decoding) (y : Symbol) :
    decodeSymbol c y = decodeInFrame c.cnt.toNat y := by
  simp only [decodeSymbol, h]

/-- EOS in a scan state (R70). -/
theorem decodeSymbol_of_scan_eos {c : Ctx} (h : c.st = .scanning ∨ c.st = .recovering) :
    decodeSymbol c .eos = .ok .scanEos := by
  obtain h | h := h <;> simp only [decodeSymbol, h]

/-- A byte that completes the sync word in a scan state (R70, R81). -/
theorem decodeSymbol_of_scan_match {c : Ctx} {b : Byte} (h : c.st = .scanning ∨ c.st = .recovering)
    (hm : matchAfter c.win c.wcnt b = true) : decodeSymbol c (.byte b) = .ok (.scanMatch b) := by
  obtain h | h := h <;> simp only [decodeSymbol, h, if_pos hm]

section Performed

variable {s t : State} {i : Instr} (hfetch : s.fetch = .ok i) (hexec : exec i s = .next t)
include hfetch hexec

/-- DEC.EOS is performed exactly on EOS in Decoding. -/
theorem performed_decEos_iff :
    i = .decEos ↔ s.resetIn = false ∧ s.st = .decoding ∧ s.presented = .eos := by
  constructor
  · rintro rfl
    exact ⟨resetIn_eq_false_of_fetch hfetch nofun, row_decEos.1 (row_of_exec hexec),
      presented_of_fetch hfetch rfl⟩
  · rintro ⟨hreset, hst, hsym⟩
    rw [fetch_of_not_resetIn hreset, hsym, decodeSymbol_of_decoding hst] at hfetch
    by_cases hcnt : s.ctx.cnt.toNat < 4
    · rw [decodeInFrame_refused .eos hcnt] at hfetch
      cases hfetch
    · rw [decodeInFrame_eos (not_lt.1 hcnt)] at hfetch
      exact (Except.ok.inj hfetch).symm

/-- LEN.LO is performed exactly on the second byte of the length field. -/
theorem performed_lenLo_iff {b : Byte} :
    i = .lenLo b ↔
      s.resetIn = false ∧ s.st = .decoding ∧ s.cnt.toNat = 16 ∧ s.presented = .byte b := by
  constructor
  · rintro rfl
    obtain ⟨hst, hcnt⟩ := row_lenLo.1 (row_of_exec hexec)
    exact ⟨resetIn_eq_false_of_fetch hfetch nofun, hst, hcnt, presented_of_fetch hfetch rfl⟩
  · rintro ⟨hreset, hst, hcnt, hsym⟩
    rw [fetch_of_not_resetIn hreset, hsym, decodeSymbol_of_decoding hst, State.ctx_cnt, hcnt] at hfetch
    exact (Except.ok.inj hfetch).symm

/-- SCAN.EOS is performed exactly on EOS in a scan state. -/
theorem performed_scanEos_iff :
    i = .scanEos ↔
      s.resetIn = false ∧ (s.st = .scanning ∨ s.st = .recovering) ∧ s.presented = .eos := by
  constructor
  · rintro rfl
    exact ⟨resetIn_eq_false_of_fetch hfetch nofun, (isScan_iff s.st).1 (row_scanEos.1 (row_of_exec hexec)),
      presented_of_fetch hfetch rfl⟩
  · rintro ⟨hreset, hst, hsym⟩
    rw [fetch_of_not_resetIn hreset, hsym, decodeSymbol_of_scan_eos hst] at hfetch
    exact (Except.ok.inj hfetch).symm

/-- SCAN.MATCH is performed exactly on a byte that completes the sync word in a scan state. -/
theorem performed_scanMatch_iff {b : Byte} :
    i = .scanMatch b ↔ s.resetIn = false ∧ (s.st = .scanning ∨ s.st = .recovering) ∧
      s.presented = .byte b ∧ matchAfter s.win s.wcnt b = true := by
  constructor
  · rintro rfl
    obtain ⟨hscan, hmatch⟩ := row_scanMatch.1 (row_of_exec hexec)
    exact ⟨resetIn_eq_false_of_fetch hfetch nofun, (isScan_iff s.st).1 hscan,
      presented_of_fetch hfetch rfl, hmatch⟩
  · rintro ⟨hreset, hst, hsym, hmatch⟩
    rw [fetch_of_not_resetIn hreset, hsym, decodeSymbol_of_scan_match hst hmatch] at hfetch
    exact (Except.ok.inj hfetch).symm

end Performed

/-- Settles O36: an event of the status channel is added exactly when the operation performed raises it
(`exec_out_eq_append_iff`); the operation that raises it is known from the event, and when it is performed
from its `performed_` lemma. -/
theorem causeTable : Obligations.CauseTable := by
  refine ⟨⟨causeCode_truncated, causeCode_malformed, statusOf_exhausted, statusOf_sync⟩, ?_⟩
  intro s u hstep
  obtain ⟨i, t, hfetch, hexec, rfl⟩ := step_next hstep
  simp only [State.advanceEnv_out, State.advanceEnv_tsize]
  have hraised {e : Event} : (statusOf e).isSome → (t.out = s.out ++ [e] ↔ s.statusRaised i = some e) :=
    exec_out_eq_append_iff hexec
  refine ⟨?truncated, ?malformed, ?exhausted, ?sync⟩
  case truncated =>
    rw [hraised rfl, statusRaised_eq_truncated_iff, performed_decEos_iff hfetch hexec]
  case malformed =>
    rw [hraised rfl, statusRaised_eq_malformed_iff]
    constructor
    · rintro ⟨hi, b, rfl, hfb, hlt⟩
      obtain ⟨hreset, hst, hcnt, hsym⟩ := (performed_lenLo_iff hfetch hexec).1 rfl
      exact ⟨hreset, hst, hcnt, hi, b, hsym, hfb, hlt, execLenLo_tsize hexec hfb⟩
    · rintro ⟨hreset, hst, hcnt, hi, b, hsym, hfb, hlt, -⟩
      exact ⟨hi, b, (performed_lenLo_iff hfetch hexec).2 ⟨hreset, hst, hcnt, hsym⟩, hfb, hlt⟩
  case exhausted =>
    rw [hraised rfl, statusRaised_eq_exhausted_iff, performed_scanEos_iff hfetch hexec]
  case sync =>
    calc (∃ k, t.out = s.out ++ [.sync k])
        ↔ ∃ k, s.statusRaised i = some (.sync k) := exists_congr fun _ => hraised rfl
      _ ↔ ∃ b, i = .scanMatch b := statusRaised_eq_sync_iff
      _ ↔ _ := by simp only [performed_scanMatch_iff hfetch hexec, exists_and_left]

end Sys2Proof.Machine
end

section
/-! The decoder (spec/30_encoding.md section 4): the operation map as one equivalence per symbol, from which
the statements about words, rows and encodings follow. -/

namespace Sys2Proof

/-! ### Words and the symbols they stand for -/

/-- A word that stands for a byte is that byte's own encoding: bit 8 is clear and nothing is ignored (R61). -/
theorem eq_word_of_symbolOf_byte {w : SymbolWord} {b : Byte} (h : symbolOf w = .byte b) :
    w = (Symbol.byte b).word := by
  cases heos : w.getLsbD 8 with
  | true =>
    rw [symbolOf_of_eos_bit heos] at h
    cases h
  | false =>
    rw [symbolOf_of_no_eos_bit heos] at h
    cases h
    refine BitVec.eq_of_toNat_eq ?_
    rw [Symbol.word, BitVec.toNat_setWidth, data_toNat_of_no_eos_bit heos, Nat.mod_eq_of_lt w.isLt]

/-- An operation's encoding stands for the symbol it samples. -/
theorem symbolOf_encode {i : Instr} {y : Symbol} (h : i.sampled = some y) : symbolOf (encode i) = y := by
  cases i <;> cases h <;> exact symbolOf_word _

/-- An operation of format B samples a byte, and its encoding is that byte's (R60, R78). -/
theorem encode_of_byteSymbol {i : Instr} (h : i.format = .byteSymbol) :
    ∃ b, i.sampled = some (.byte b) ∧ encode i = (Symbol.byte b).word := by
  cases i <;> cases h <;> exact ⟨_, rfl, rfl⟩

/-! ### The operation map -/

/-- A byte that does not complete the sync word in a scan state (R70, R81). -/
theorem decodeSymbol_of_scan_shift {c : Ctx} {b : Byte} (h : c.st = .scanning ∨ c.st = .recovering)
    (hm : matchAfter c.win c.wcnt b = false) : decodeSymbol c (.byte b) = .ok (.scanShift b) := by
  obtain h | h := h <;> simp only [decodeSymbol, h, hm, Bool.false_eq_true, if_false]

/-- Every symbol in Done (R70, R107). -/
theorem decodeSymbol_of_done {c : Ctx} (h : c.st = .done) (y : Symbol) :
    decodeSymbol c y = .ok .doneHold := by
  simp only [decodeSymbol, h]

/-- Where CNT is at least 4 in Decoding, the row of the operation a symbol selects holds (R70, R71). -/
theorem exists_decodeSymbol {c : Ctx} (h4 : c.st = .decoding → 4 ≤ c.cnt.toNat) (y : Symbol) :
    ∃ i, decodeSymbol c y = .ok i ∧ i.row c = true := by
  by_cases hscan : c.st.isScan = true
  · have hst := (Machine.isScan_iff c.st).1 hscan
    cases y with
    | eos => exact ⟨.scanEos, Machine.decodeSymbol_of_scan_eos hst, row_scanEos.2 hscan⟩
    | byte b =>
      cases hm : matchAfter c.win c.wcnt b with
      | true => exact ⟨_, Machine.decodeSymbol_of_scan_match hst hm, row_scanMatch.2 ⟨hscan, hm⟩⟩
      | false => exact ⟨_, decodeSymbol_of_scan_shift hst hm, row_scanShift.2 ⟨hscan, hm⟩⟩
  · cases hst : c.st with
    | scanning | recovering => exact absurd (by rw [hst]; rfl) hscan
    | done => exact ⟨_, decodeSymbol_of_done hst y, row_doneHold.2 hst⟩
    | decoding =>
      rw [Machine.decodeSymbol_of_decoding hst]
      cases y with
      | eos => exact ⟨_, decodeInFrame_eos (h4 hst), row_decEos.2 hst⟩
      | byte b =>
        refine ⟨_, decodeInFrame_byte b (h4 hst), ?_⟩
        obtain ⟨hn, e⟩ | ⟨hn, e⟩ | ⟨hn, e⟩ | ⟨hn, e⟩ := decodeFrameByte_cases b (h4 hst) <;> rw [e]
        · exact row_hdrByte.2 ⟨hst, h4 hst, hn⟩
        · exact row_lenHi.2 ⟨hst, hn⟩
        · exact row_lenLo.2 ⟨hst, hn⟩
        · exact row_payByte.2 ⟨hst, hn⟩

/-- A selection in Decoding has CNT at least 4: below, every symbol is refused (R71, R111). -/
theorem le_cnt_of_decodeSymbol {c : Ctx} {y : Symbol} {i : Instr} (h : decodeSymbol c y = .ok i)
    (hst : c.st = .decoding) : 4 ≤ c.cnt.toNat := by
  by_contra hlt
  rw [Machine.decodeSymbol_of_decoding hst, decodeInFrame_refused y (not_le.1 hlt)] at h
  cases h

/-- Where an operation's row holds, the symbol it samples selects it (R70). -/
theorem decodeSymbol_of_row {c : Ctx} {y : Symbol} {i : Instr} (hrow : i.row c = true)
    (h4 : c.st = .decoding → 4 ≤ c.cnt.toNat) (hy : i.sampled = some y) : decodeSymbol c y = .ok i := by
  have hscanned : c.st.isScan = true → c.st = .scanning ∨ c.st = .recovering :=
    (Machine.isScan_iff c.st).1
  have hframe {n : Nat} {b : Byte} (hst : c.st = .decoding) (hn : c.cnt.toNat = n) :
      decodeSymbol c (.byte b) = .ok (decodeFrameByte n b) := by
    rw [Machine.decodeSymbol_of_decoding hst, decodeInFrame_byte b (h4 hst), hn]
  cases i with
  | scanShift b =>
    cases hy
    obtain ⟨hscan, hm⟩ := row_scanShift.1 hrow
    exact decodeSymbol_of_scan_shift (hscanned hscan) hm
  | scanMatch b =>
    cases hy
    obtain ⟨hscan, hm⟩ := row_scanMatch.1 hrow
    exact Machine.decodeSymbol_of_scan_match (hscanned hscan) hm
  | scanEos =>
    cases hy
    exact Machine.decodeSymbol_of_scan_eos (hscanned (row_scanEos.1 hrow))
  | hdrByte b =>
    cases hy
    obtain ⟨hst, hlo, hhi⟩ := row_hdrByte.1 hrow
    rw [hframe hst rfl, decodeFrameByte, if_pos (Nat.lt_succ_of_le hhi)]
  | lenHi b =>
    cases hy
    obtain ⟨hst, hcnt⟩ := row_lenHi.1 hrow
    exact hframe hst hcnt
  | lenLo b =>
    cases hy
    obtain ⟨hst, hcnt⟩ := row_lenLo.1 hrow
    exact hframe hst hcnt
  | payByte b =>
    cases hy
    obtain ⟨hst, hlo⟩ := row_payByte.1 hrow
    obtain ⟨hn, -⟩ | ⟨hn, -⟩ | ⟨hn, -⟩ | ⟨-, e⟩ := decodeFrameByte_cases b (h4 hst)
    · omega
    · omega
    · omega
    · rw [hframe hst rfl, e]
  | decEos =>
    cases hy
    have hst := row_decEos.1 hrow
    rw [Machine.decodeSymbol_of_decoding hst, decodeInFrame_eos (h4 hst)]
  | doneHold => cases hy
  | reset => cases hy

/-- The operation map without the reset input, all rows at once (R70, R71): the operation selected is the one
whose row holds and that samples the symbol, or DONE.HOLD. -/
theorem decodeSymbol_eq_ok_iff {c : Ctx} {y : Symbol} {i : Instr} : decodeSymbol c y = .ok i ↔
    i.row c = true ∧ (c.st = .decoding → 4 ≤ c.cnt.toNat) ∧ (i = .doneHold ∨ i.sampled = some y) := by
  constructor
  · intro h
    obtain ⟨j, hj, hrow⟩ := exists_decodeSymbol (le_cnt_of_decodeSymbol h) y
    obtain rfl : i = j := Except.ok.inj (h.symm.trans hj)
    exact ⟨hrow, le_cnt_of_decodeSymbol h, sampled_of_decodeSymbol h⟩
  · rintro ⟨hrow, h4, rfl | hy⟩
    · exact decodeSymbol_of_done (row_doneHold.1 hrow) y
    · exact decodeSymbol_of_row hrow h4 hy

/-- Without the reset input RESET is never selected, whatever the word. -/
theorem decodeSymbol_ne_reset {c : Ctx} {y : Symbol} : decodeSymbol c y ≠ .ok .reset := fun h => by
  obtain ⟨-, -, hi | hy⟩ := decodeSymbol_eq_ok_iff.1 h
  · cases hi
  · cases hy

/-! ### The obligations -/

/-- Settles O4: `exists_decodeSymbol`, and the decoder's refusing arm. -/
theorem operationMapTotal : Obligations.OperationMapTotal := by
  refine ⟨fun r c w h4 => ?_, fun c w hst hlt => ?_⟩
  · cases r with
    | true => exact ⟨.reset, decode_of_resetIn c w⟩
    | false =>
      obtain ⟨i, hi, -⟩ := exists_decodeSymbol h4 (symbolOf w)
      exact ⟨i, hi⟩
  · exact (Machine.decodeSymbol_of_decoding hst _).trans (decodeInFrame_refused _ hlt)

/-- Settles O3: `decodeSymbol_eq_ok_iff` read at each operation's row; the reset input is the decoder's first
test. -/
theorem operationMapExact : Obligations.OperationMapExact := by
  intro r c w i
  have hsel : decode false c w = decodeSymbol c (symbolOf w) := rfl
  have hscan := Machine.isScan_iff c.st
  cases r with
  | true =>
    rw [decode_of_resetIn]
    cases i <;> simp
  | false =>
    rw [hsel, decodeSymbol_eq_ok_iff]
    cases i with
    | scanShift b => grind [row_scanShift, Instr.sampled]
    | scanMatch b => grind [row_scanMatch, Instr.sampled]
    | scanEos => grind [row_scanEos, Instr.sampled]
    | hdrByte b => grind [row_hdrByte, Instr.sampled]
    | lenHi b => grind [row_lenHi, Instr.sampled]
    | lenLo b => grind [row_lenLo, Instr.sampled]
    | payByte b => grind [row_payByte, Instr.sampled]
    | decEos => grind [row_decEos, Instr.sampled]
    | doneHold => grind [row_doneHold, Instr.sampled]
    | reset => simp [Instr.sampled]

/-- An operation the decoder selects is one an encoding can stand for: only SCAN.MATCH has a condition, and the
match test gives it. -/
theorem wellFormed_of_row {i : Instr} {c : Ctx} (h : i.row c = true) : i.wellFormed = true := by
  cases i with
  | scanMatch b =>
    obtain ⟨-, -, -, -, hb⟩ := (Machine.matchAfter_iff_bytes _ _ _).1 (row_scanMatch.1 h).2
    exact beq_iff_eq.2 hb
  | _ => rfl

/-- Settles O5: both directions of `decodeSymbol_eq_ok_iff`, at the symbol that `encode` writes and
`symbolOf` reads. -/
theorem decodeEncodeRoundTrip : Obligations.DecodeEncodeRoundTrip := by
  refine ⟨fun i c _ hrow hne h4 => ?encoded, decode_of_resetIn, fun i c w h => ?decoded⟩
  case encoded =>
    refine decodeSymbol_eq_ok_iff.2 ⟨hrow, h4, ?_⟩
    cases hs : i.sampled with
    | some y => exact .inr (congrArg some (symbolOf_encode hs).symm)
    | none =>
      cases i with
      | doneHold => exact .inl rfl
      | reset => exact absurd rfl hne
      | _ => cases hs
  case decoded =>
    change decodeSymbol c (symbolOf w) = .ok i at h
    obtain ⟨hrow, -, hsampled⟩ := decodeSymbol_eq_ok_iff.1 h
    refine ⟨wellFormed_of_row hrow, hrow, fun hi => decodeSymbol_ne_reset (hi ▸ h), fun hfmt => ?_⟩
    obtain ⟨b, hb, henc⟩ := encode_of_byteSymbol hfmt
    obtain rfl | hy := hsampled
    · cases hfmt
    · rw [henc]
      exact eq_word_of_symbolOf_byte (Option.some.inj (hy.symm.trans hb))

/-- Settles O6: each of the ten fixed words, decoded. -/
theorem specWordsDecode : Obligations.SpecWordsDecode := by
  refine ⟨?_, ?_, ?_, ?_, ?_, ?_, ?_, ?_, ?_, ?_⟩ <;> decide

end Sys2Proof
end

section
/-! One step (spec/42_control_fsm.md section 2): the operation selected, its outcome, and the environment's
move. -/

namespace Sys2Proof.Machine

/-! ### The environment's move -/

/-- The environment moves only its own fields, on any operation. -/
theorem advanceEnv_eq (t : State) (i : Instr) :
    t.advanceEnv i = { t with input := (t.advanceEnv i).input, plan := (t.advanceEnv i).plan } := by
  cases i with
  | reset =>
    simp only [State.advanceEnv]
    cases t.plan <;> rfl
  | _ => rfl

/-- After any operation but RESET the schedule advances, and a byte taken leaves the stream (R40, R41). -/
theorem advanceEnv_of_ne_reset {i : Instr} (t : State) (h : i ≠ .reset) :
    t.advanceEnv i = { t with
      input := if i.format = .byteSymbol then t.input.tail else t.input
      plan := tickPlan t.plan } := by
  cases i with
  | reset => exact absurd rfl h
  | _ => rfl

/-- After RESET the next session's stream is presented (R118). -/
theorem advanceEnv_reset {t : State} {p : ResetPlan} {ps : List ResetPlan} (h : t.plan = p :: ps) :
    t.advanceEnv .reset = { t with input := p.stream, plan := ps } := by
  simp only [State.advanceEnv, h]

/-! ### A step by what the decoder answers -/

/-- A step is the selected operation's outcome with the environment's move added. -/
theorem step_of_fetch {s : State} {i : Instr} (h : s.fetch = .ok i) : step s = thenEnv (exec i s) i := by
  simp only [step, h]

/-- Where the decoder refuses, the step is a refusal of the model. -/
theorem step_of_fetch_error {s : State} (h : s.fetch = .error .noRow) : step s = .refused .noRow := by
  simp only [step, h]

/-! ### Refusals -/

/-- Outside its row an operation is refused. -/
theorem whenSelected_of_not_row {s : State} {i : Instr} {k : StepResult} (h : i.row s.ctx = false) :
    s.whenSelected i k = .refused .notSelected := if_neg (Bool.eq_false_iff.1 h)

/-- Going on after a read refuses only if what follows does. -/
theorem orFault_ne_refused {α : Type} {r : Except Fault α} {k : α → StepResult} {q : Refusal}
    (h : ∀ a, k a ≠ .refused q) : orFault r k ≠ .refused q := by
  cases r with
  | ok a => exact h a
  | error f => nofun

/-- In its row no operation is refused: all ten have their meaning. -/
theorem exec_ne_refused {i : Instr} {s : State} (h : i.row s.ctx = true) (q : Refusal) :
    exec i s ≠ .refused q := by
  cases i with
  | scanShift b =>
    rw [exec_scanShift, execScanShift, whenSelected_of_row h]
    exact orFault_ne_refused fun _ => nofun
  | scanMatch b =>
    rw [exec_scanMatch, execScanMatch, whenSelected_of_row h]
    exact orFault_ne_refused fun _ => nofun
  | hdrByte b =>
    rw [exec_hdrByte, execHdrByte, whenSelected_of_row h]
    exact orFault_ne_refused fun _ => nofun
  | lenHi b =>
    rw [exec_lenHi, execLenHi, whenSelected_of_row h]
    exact orFault_ne_refused fun _ => nofun
  | lenLo b =>
    rw [exec_lenLo, execLenLo, whenSelected_of_row h]
    refine orFault_ne_refused fun hi => orFault_ne_refused fun s1 => ?_
    dsimp only
    split_ifs
    · nofun
    · exact orFault_ne_refused fun _ => nofun
    · nofun
  | payByte b =>
    rw [exec_payByte, execPayByte, whenSelected_of_row h]
    refine orFault_ne_refused fun t => orFault_ne_refused fun s1 => ?_
    split_ifs
    · exact orFault_ne_refused fun _ => nofun
    · nofun
  | scanEos =>
    rw [exec_scanEos, execScanEos, whenSelected_of_row h]
    nofun
  | decEos =>
    rw [exec_decEos, execDecEos, whenSelected_of_row h]
    nofun
  | doneHold =>
    change execDoneHold s ≠ _
    rw [execDoneHold, whenSelected_of_row h]
    nofun
  | reset =>
    rw [exec_reset, execReset_eq]
    nofun

/-- The row of the operation a step performs holds (R70). -/
theorem row_of_fetch {s : State} {i : Instr} (h : s.fetch = .ok i) : i.row s.ctx = true := by
  rw [fetch_eq] at h
  split at h
  · cases h
    exact row_reset
  · exact (decodeSymbol_eq_ok_iff.1 h).1

/-- Settles O7: a step is `thenEnv` of the selected operation, which is in its row and so not refused; the
environment's move is `advanceEnv`'s. -/
theorem stepRunsSelected : Obligations.StepRunsSelected := by
  intro s i hfetch
  have hstep : step s = thenEnv (exec i s) i := step_of_fetch hfetch
  refine ⟨fun f hf => by rw [hstep, hf]; rfl, exec_ne_refused (row_of_fetch hfetch), fun t ht => ?_⟩
  refine ⟨t.advanceEnv i, by rw [hstep, ht]; rfl, advanceEnv_eq t i, fun hne => ?_, fun hi p ps hp => ?_⟩
  · rw [advanceEnv_of_ne_reset t hne]
    exact ⟨rfl, rfl⟩
  · subst hi
    rw [advanceEnv_reset hp]
    exact ⟨rfl, rfl⟩

/-- Settles O8: the decoder's refusing arm, whatever symbol is presented. -/
theorem unmappedStepRefused : Obligations.UnmappedStepRefused := by
  intro s hreset hst hcnt
  refine step_of_fetch_error ?_
  rw [fetch_of_not_resetIn hreset, decodeSymbol_of_decoding hst]
  exact decodeInFrame_refused _ hcnt

/-- Settles O9: every operation but RESET, whose row always holds, is guarded by its row. -/
theorem offRowRefused : Obligations.OffRowRefused := by
  intro i s h
  cases i with
  | reset => cases h
  | _ => exact whenSelected_of_not_row h

/-! ### Steps in Done -/

theorem exec_doneHold (s : State) : exec .doneHold s = execDoneHold s := rfl

/-- DONE.HOLD answers in its row: the converse of `execDoneHold_next`. -/
theorem execDoneHold_of_row {s : State} (h : s.st = .done) : execDoneHold s = .next s := by
  rw [execDoneHold, whenSelected_of_row (row_doneHold.2 h)]

/-- A step in Done moves the reset schedule and nothing else (R107). -/
theorem step_of_done {s : State} (hst : s.st = .done) (hreset : s.resetIn = false) :
    step s = .next { s with plan := tickPlan s.plan } := by
  have hfetch : s.fetch = .ok .doneHold := by
    rw [fetch_of_not_resetIn hreset]
    exact decodeSymbol_of_done hst _
  rw [step_of_fetch hfetch, exec_doneHold, execDoneHold_of_row hst]
  rfl

/-- Settles O19: `execDoneHold_of_row` and `step_of_done`. -/
theorem doneHoldEffect : Obligations.DoneHoldEffect := fun _ hst =>
  ⟨execDoneHold_of_row hst, step_of_done hst⟩

/-- With no reset scheduled the reset input is never asserted. -/
theorem resetIn_of_plan_nil {s : State} (h : s.plan = []) : s.resetIn = false := by
  simp only [State.resetIn, h]

/-- With no reset scheduled a step in Done changes nothing at all. -/
theorem step_of_done_of_plan_nil {s : State} (hst : s.st = .done) (hplan : s.plan = []) :
    step s = .next s := by
  rw [step_of_done hst (resetIn_of_plan_nil hplan), hplan, tickPlan, ← hplan]

/-- The first of several steps. -/
theorem steps_succ_of_next {s t : State} (k : Nat) (h : step s = .next t) :
    steps (k + 1) s = steps k t := by
  simp only [steps, h]

/-- Settles O41, by induction on the number of steps. -/
theorem doneHoldsForever : Obligations.DoneHoldsForever := by
  intro s k hst hplan
  induction k with
  | zero => rfl
  | succ k ih => rw [steps_succ_of_next k (step_of_done_of_plan_nil hst hplan), ih]

/-! ### RESET as a step -/

/-- A step under the reset input is RESET, and the environment presents the next stream (R108, R118). -/
theorem step_of_reset_due {s : State} {p : ResetPlan} {ps : List ResetPlan} (hplan : s.plan = p :: ps)
    (hdue : p.after = 0) :
    step s = .next { State.reset with fb := s.fb, out := s.out, input := p.stream, plan := ps } := by
  have hreset : s.resetIn = true := by simp only [State.resetIn, hplan, hdue, beq_self_eq_true]
  have hfetch : s.fetch = .ok .reset := by rw [fetch_eq, hreset, if_pos rfl]
  rw [step_of_fetch hfetch, exec_reset, execReset_eq]
  exact congrArg Host.Outcome.next (advanceEnv_reset (by exact hplan))

/-- Settles O40: the schedule's first entry is due, so the step is `step_of_reset_due`. -/
theorem resetOverridesSymbol : Obligations.ResetOverridesSymbol := fun _ _ _ hplan hdue =>
  step_of_reset_due hplan hdue

end Sys2Proof.Machine
end

section
/-! Operands, reads and writes (spec/30_encoding.md section 2, 10_state.md section 5, 20_memory.md). -/

namespace Sys2Proof.Machine

/-- Settles O22: the value of the assembled bytes, and the bound of 16 bits. -/
theorem totalSizeBigEndian : Obligations.TotalSizeBigEndian := fun hi lo =>
  ⟨assembleTotalSize_toNat hi lo, Nat.le_of_lt_succ (assembleTotalSize hi lo).isLt⟩

/-- Below the least legal size no payload length is formed (R98). -/
theorem remainingOf_of_lt {t : Word} (h : t.toNat < 17) : remainingOf t = none := if_pos h

/-- From the least legal size on, the payload length is the rest of the size (R65). -/
theorem remainingOf_of_le {t : Word} (h : 17 ≤ t.toNat) : remainingOf t = some (t.toNat - 17) :=
  if_neg (not_lt.2 h)

/-- Settles O23: the two branches of the range check. -/
theorem remainingAfterCheck : Obligations.RemainingAfterCheck := by
  refine fun t => ⟨remainingOf_of_lt, fun h => ⟨t.toNat - 17, remainingOf_of_le h, ?_⟩⟩
  have hbound : t.toNat < 65536 := t.isLt
  omega

section ScanReads

variable {s : State} (hscan : s.st.isScan = true)
include hscan

/-! A window byte that the fill count covers is read as it is (R36). -/

theorem readW_zero_of_scan (h : 1 ≤ s.wcnt.toNat) : s.readW 0 = .ok s.win.w3 := if_pos ⟨hscan, h⟩
theorem readW_one_of_scan (h : 2 ≤ s.wcnt.toNat) : s.readW 1 = .ok s.win.w2 := if_pos ⟨hscan, h⟩
theorem readW_two_of_scan (h : 3 ≤ s.wcnt.toNat) : s.readW 2 = .ok s.win.w1 := if_pos ⟨hscan, h⟩
theorem readW_three_of_scan (h : 4 ≤ s.wcnt.toNat) : s.readW 3 = .ok s.win.w0 := if_pos ⟨hscan, h⟩

end ScanReads

/-- Settles O25: each accessor's guard is R36's condition, so each clause is one branch of its accessor. -/
theorem meaninglessReadsFault : Obligations.MeaninglessReadsFault := by
  intro s
  have hscan := isScan_iff s.st
  refine ⟨fun i => rfl, fun k hk => ?window, fun hst => ?scan, fun hst => ?outside, rfl⟩
  case window =>
    refine if_neg fun hread => hk ⟨hscan.1 hread.1, hread.2⟩
  case scan =>
    have hs := hscan.2 hst
    exact ⟨readW_zero_of_scan hs, readW_one_of_scan hs, readW_two_of_scan hs, readW_three_of_scan hs,
      readWcnt_of_scan hs, readSkip_of_scan hs⟩
  case outside =>
    have hs : ¬ s.st.isScan = true := fun h => hst (hscan.1 h)
    exact ⟨if_neg hs, if_neg hs⟩

/-- Settles O26: a write answers exactly below FB's size and is read back by `fbCell_fbPut`; a read is
`memRead_of_cells`. -/
theorem frameBufferWriteRead : Obligations.FrameBufferWriteRead := by
  refine ⟨fun s i b hi => ?_, fun s i b hi => if_neg (not_lt.2 hi), fun s bs hst hlen hcells => ?_⟩
  · exact ⟨fbPut s.fb i b, memWrite_eq s b hi, fun a => fbCell_fbPut s.fb i a b, wf_fbPut b hi⟩
  · exact memRead_of_cells hst hlen hcells

end Sys2Proof.Machine
end

section
/-! What a step can do, said once (spec/42_control_fsm.md R105): ten operations have eight effects, since the
four capturing operations of the frame decoder differ only in the size they go by. -/

namespace Sys2Proof.Machine

open Sys2Proof.Laws.EncodeFormat (operand)

/-- The size a decode attempt goes by once `b` is captured: LEN.LO decodes it from FB[15] and its byte, any
other byte leaves TSIZE (R93, R94). -/
def SizeWith (s : State) (b : Byte) (z : Word) : Prop :=
  if s.cnt.toNat = 16 then ∃ hi, fbCell s.fb 15 = some hi ∧ z = assembleTotalSize hi b else z = s.tsize

theorem sizeWith_of_cnt_eq {s : State} {b : Byte} {z : Word} (h : s.cnt.toNat = 16) :
    SizeWith s b z ↔ ∃ hi, fbCell s.fb 15 = some hi ∧ z = assembleTotalSize hi b := by
  rw [SizeWith, if_pos h]

theorem sizeWith_of_cnt_ne {s : State} {b : Byte} {z : Word} (h : s.cnt.toNat ≠ 16) :
    SizeWith s b z ↔ z = s.tsize := by
  rw [SizeWith, if_neg h]

/-- The scan goes on: SCAN.SHIFT's result (R82). -/
def State.shifted (s : State) (b : Byte) : State :=
  { s with win := s.win.shift b, wcnt := fillNext s.wcnt, skip := s.skipCounted, pos := s.pos + 1 }

/-- A decode attempt begins: SCAN.MATCH's result (R83). -/
def State.synced (s : State) (b : Byte) : State :=
  { s.shifted b with out := s.out ++ [Event.sync s.skipCounted] }.beginFrame

/-- A byte stored at FB[CNT] and consumed, with the size that goes with it. -/
def State.stored (s : State) (b : Byte) (z : Word) : State :=
  { s with fb := fbPut s.fb s.cnt.toNat b, tsize := z, pos := s.pos + 1 }

/-- The attempt goes on: the byte is stored and counted (R91 to R94). -/
def State.captured (s : State) (b : Byte) (z : Word) : State :=
  { s.stored b z with cnt := s.cnt + 1 }

/-- A byte can be captured: Decoding, an index FB has, and the size that goes with the byte. -/
structure Captures (s : State) (b : Byte) (z : Word) : Prop where
  decoding : s.st = .decoding
  four_le : 4 ≤ s.cnt.toNat
  in_buffer : s.cnt.toNat < 65535
  size : SizeWith s b z

/-- The effects of the operations other than RESET, with the byte each takes. -/
inductive Effect (s : State) : Option Byte → State → Prop
  | shift (b : Byte) (hscan : s.st.isScan = true) (hm : matchAfter s.win s.wcnt b = false) :
      Effect s (some b) (s.shifted b)
  | sync (b : Byte) (hscan : s.st.isScan = true) (hm : matchAfter s.win s.wcnt b = true) :
      Effect s (some b) (s.synced b)
  | exhaust (hscan : s.st.isScan = true) :
      Effect s none { s with out := s.out ++ [.exhausted], st := .done }
  | capture (b : Byte) (z : Word) (hc : Captures s b z)
      (hmore : s.cnt.toNat < 16 ∨ s.cnt.toNat = 16 ∧ 17 < z.toNat ∨
        16 < s.cnt.toNat ∧ s.cnt.toNat + 1 ≠ z.toNat) :
      Effect s (some b) (s.captured b z)
  | deliver (b : Byte) (z : Word) (front : List Byte) (hc : Captures s b z) (h16 : 16 ≤ s.cnt.toNat)
      (hlast : s.cnt.toNat + 1 = z.toNat) (hread : s.memRead 0 s.cnt.toNat = .ok front) :
      Effect s (some b) ((s.stored b z).deliver (front ++ [b]) z)
  | malformed (b : Byte) (z : Word) (hc : Captures s b z) (hcnt : s.cnt.toNat = 16) (hlt : z.toNat < 17) :
      Effect s (some b) ((s.stored b z).raise .malformed)
  | truncate (hst : s.st = .decoding) : Effect s none (s.raise .truncated)
  | hold (hst : s.st = .done) : Effect s none s

/-- One more in CNT's 16 bits, inside the frame buffer. -/
theorem cnt_add_one_toNat {c : Word} (h : c.toNat < 65535) : (c + 1).toNat = c.toNat + 1 := by
  have h1 : (1 : Word).toNat = 1 := rfl
  rw [BitVec.toNat_add, h1]
  omega

/-- Below CNT 16 a captured byte leaves TSIZE, and no size check stops it. -/
theorem effect_capture_front {s : State} (b : Byte) (hst : s.st = .decoding) (hlo : 4 ≤ s.cnt.toNat)
    (hhi : s.cnt.toNat < 16) : Effect s (some b) (s.captured b s.tsize) :=
  .capture b s.tsize ⟨hst, hlo, by omega, (sizeWith_of_cnt_ne (by omega)).2 rfl⟩ (.inl hhi)

/-- Every operation but RESET has one of the effects, and takes its operand. -/
theorem exec_effect {i : Instr} {s t : State} (h : exec i s = .next t) (hi : i ≠ .reset) :
    Effect s (operand i) t := by
  cases i with
  | scanShift b =>
    obtain ⟨hscan, hm, rfl⟩ := execScanShift_next h
    exact .shift b hscan hm
  | scanMatch b =>
    obtain ⟨hscan, hm, rfl⟩ := execScanMatch_next h
    exact .sync b hscan hm
  | scanEos =>
    obtain ⟨hscan, rfl⟩ := execScanEos_next h
    exact .exhaust hscan
  | hdrByte b =>
    obtain ⟨hst, hlo, hhi, rfl⟩ := execHdrByte_next h
    exact effect_capture_front b hst hlo (by omega)
  | lenHi b =>
    obtain ⟨hst, hcnt, rfl⟩ := execLenHi_next h
    have hc : s.cnt = 15 := BitVec.eq_of_toNat_eq hcnt
    have e := effect_capture_front b hst (by omega) (by omega)
    rw [State.captured, State.stored, hc] at e
    exact e
  | lenLo b =>
    obtain ⟨hst, hcnt, hi, hfb, hcases⟩ := execLenLo_next h
    have hc : s.cnt = 16 := BitVec.eq_of_toNat_eq hcnt
    have hcap : Captures s b (assembleTotalSize hi b) :=
      ⟨hst, by omega, by omega, (sizeWith_of_cnt_eq hcnt).2 ⟨hi, hfb, rfl⟩⟩
    have hstored : s.stored b (assembleTotalSize hi b) = { s with
        fb := fbPut s.fb 16 b, tsize := assembleTotalSize hi b, pos := s.pos + 1 } := by
      rw [State.stored, hcnt]
    obtain ⟨hlt, rfl⟩ | ⟨heq, front, hread, rfl⟩ | ⟨hgt, rfl⟩ := hcases
    · rw [← hstored]
      exact .malformed b _ hcap hcnt hlt
    · rw [← hstored]
      exact .deliver b _ front hcap hcnt.ge (by omega) (by rw [hcnt]; exact hread)
    · have e := Effect.capture b _ hcap (.inr (.inl ⟨hcnt, hgt⟩))
      rw [State.captured, hstored, hc] at e
      exact e
  | payByte b =>
    obtain ⟨hst, hlo, hhi, hcases⟩ := execPayByte_next h
    have hcap : Captures s b s.tsize := ⟨hst, by omega, hhi, (sizeWith_of_cnt_ne (by omega)).2 rfl⟩
    obtain ⟨hlast, front, hread, rfl⟩ | ⟨hmore, rfl⟩ := hcases
    · exact .deliver b s.tsize front hcap (by omega) hlast hread
    · exact .capture b s.tsize hcap (.inr (.inr ⟨hlo, hmore⟩))
  | decEos =>
    obtain ⟨hst, rfl⟩ := execDecEos_next h
    exact .truncate hst
  | doneHold =>
    obtain ⟨hst, rfl⟩ := execDoneHold_next h
    exact .hold hst
  | reset => exact absurd rfl hi

/-! ### The stream and the schedule over a step -/

theorem input_of_presented_byte {s : State} {b : Byte} (h : s.presented = .byte b) :
    s.input = b :: s.input.tail := by
  unfold State.presented at h
  split at h
  · cases h
  · cases h
    simp [*]

theorem input_of_presented_eos {s : State} (h : s.presented = .eos) : s.input = [] := by
  unfold State.presented at h
  split at h
  · assumption
  · cases h

/-- What a performed operation says about the stream: a byte it takes is the next one, and where it takes none
outside Done the stream has ended. -/
theorem input_of_fetch {s : State} {i : Instr} (h : s.fetch = .ok i) (hi : i ≠ .reset) :
    s.input = (operand i).toList ++ (if i.format = .byteSymbol then s.input.tail else s.input) ∧
      (operand i = none → s.st ≠ .done → s.input = []) := by
  have hbyte {b : Byte} (hs : i.sampled = some (.byte b)) : s.input = b :: s.input.tail :=
    input_of_presented_byte (presented_of_fetch h hs)
  have heos (hs : i.sampled = some .eos) : s.input = [] :=
    input_of_presented_eos (presented_of_fetch h hs)
  cases i with
  | scanShift b | scanMatch b | hdrByte b | lenHi b | lenLo b | payByte b => exact ⟨hbyte rfl, nofun⟩
  | scanEos | decEos => exact ⟨rfl, fun _ _ => heos rfl⟩
  | doneHold => exact ⟨rfl, fun _ hne => absurd (row_doneHold.1 (row_of_fetch h)) hne⟩
  | reset => exact absurd rfl hi

/-- The fields an effect leaves to the environment. -/
theorem Effect.env_eq {s t : State} {tk : Option Byte} (e : Effect s tk t) :
    t.input = s.input ∧ t.plan = s.plan := by
  cases e <;> exact ⟨rfl, rfl⟩

/-- What a step without the reset input can do: one of the effects, with the byte it takes gone from the
stream and the schedule one step on; it takes none outside Done only where the stream has ended. -/
theorem step_effect {s u : State} (hreset : s.resetIn = false) (h : step s = .next u) :
    ∃ tk t xs, Effect s tk t ∧ u = { t with input := xs, plan := tickPlan s.plan } ∧
      s.input = tk.toList ++ xs ∧ (tk = none → s.st ≠ .done → s.input = []) := by
  obtain ⟨i, t, hfetch, hexec, rfl⟩ := step_next h
  have hi : i ≠ .reset := by
    rintro rfl
    rw [resetIn_of_fetch hfetch] at hreset
    cases hreset
  have e := exec_effect hexec hi
  obtain ⟨hin, hplan⟩ := e.env_eq
  obtain ⟨hsplit, hend⟩ := input_of_fetch hfetch hi
  refine ⟨operand i, t, _, e, ?_, hsplit, hend⟩
  rw [advanceEnv_of_ne_reset t hi, hin, hplan]

/-- What a step under the reset input can do (R108, R118). -/
theorem step_reset {s u : State} (hreset : s.resetIn = true) (h : step s = .next u) :
    ∃ xs ps, u = { State.reset with fb := s.fb, out := s.out, input := xs, plan := ps } := by
  unfold State.resetIn at hreset
  split at hreset
  · cases hreset
  · rename_i p ps hplan
    rw [step_of_reset_due hplan (beq_iff_eq.1 hreset)] at h
    cases h
    exact ⟨p.stream, ps, rfl⟩

/-- A property of the registers, the frame buffer and the events is kept by every step if every effect keeps it
and it holds after RESET. -/
theorem step_preserves {P : State → Prop} {s u : State} (h : step s = .next u)
    (henv : ∀ t xs ps, P t → P { t with input := xs, plan := ps })
    (heffect : ∀ tk t, Effect s tk t → P t)
    (hreset : P { State.reset with fb := s.fb, out := s.out }) : P u := by
  cases hr : s.resetIn with
  | true =>
    obtain ⟨xs, ps, rfl⟩ := step_reset hr h
    exact henv _ xs ps hreset
  | false =>
    obtain ⟨tk, t, xs, e, rfl, -, -⟩ := step_effect hr h
    exact henv t xs _ (heffect tk t e)

/-! ### Events and position -/

/-- Settles O31: `exec_out`, whose events are at most one, and the environment adds none. -/
theorem oneEventPerStep : Obligations.OneEventPerStep := by
  intro s u h
  obtain ⟨i, t, -, hexec, rfl⟩ := step_next h
  rw [State.advanceEnv_out]
  obtain hout | ⟨-, raw, n, hout⟩ := exec_out hexec
  · cases hraised : s.statusRaised i with
    | none => exact .inl (by rw [hout, hraised, Option.toList_none, List.append_nil])
    | some e => exact .inr ⟨e, by rw [hout, hraised, Option.toList_some]⟩
  · exact .inr ⟨_, hout⟩

/-- POS counts the byte taken, if one is (R29). -/
theorem Effect.pos_eq {s t : State} {tk : Option Byte} (e : Effect s tk t) :
    t.pos = s.pos + tk.toList.length := by
  cases e <;> rfl

/-- Settles O33: the byte an effect takes is what leaves the stream and what POS counts. -/
theorem bytesConsumedOnce : Obligations.BytesConsumedOnce := by
  intro s u hreset h
  obtain ⟨tk, t, xs, e, rfl, hsplit, -⟩ := step_effect hreset h
  refine ⟨tk.toList, hsplit, ?_, e.pos_eq⟩
  cases tk with
  | none => exact Nat.zero_le _
  | some b => exact le_rfl

end Sys2Proof.Machine
end

section
/-! The invariants of spec/10_state.md section 4 over every step. What each says of a state depends on ST, so
the effects are first sorted by the ST they leave. -/

namespace Sys2Proof.Machine

/-! ### The effects by the control state they leave -/

theorem st_ne_of_isScan {s : State} (h : s.st.isScan = true) : s.st ≠ .decoding ∧ s.st ≠ .done := by
  obtain h | h := (isScan_iff s.st).1 h <;> rw [h] <;> decide

/-- Decoding is entered by a match and kept by a captured byte. -/
theorem Effect.of_decoding {s t : State} {tk : Option Byte} (e : Effect s tk t) (ht : t.st = .decoding) :
    (∃ b, tk = some b ∧ s.st.isScan = true ∧ matchAfter s.win s.wcnt b = true ∧ t = s.synced b) ∨
      ∃ b z, tk = some b ∧ Captures s b z ∧ t = s.captured b z ∧
        (s.cnt.toNat < 16 ∨ s.cnt.toNat = 16 ∧ 17 < z.toNat ∨
          16 < s.cnt.toNat ∧ s.cnt.toNat + 1 ≠ z.toNat) := by
  cases e with
  | shift b hscan hm => exact absurd ht (st_ne_of_isScan hscan).1
  | sync b hscan hm => exact .inl ⟨b, rfl, hscan, hm, rfl⟩
  | capture b z hc hmore => exact .inr ⟨b, z, rfl, hc, rfl, hmore⟩
  | hold hst =>
    rw [hst] at ht
    cases ht
  | exhaust | deliver | malformed | truncate => cases ht

/-- A scan goes on with a shifted byte, and starts empty where an attempt ends (R23, R24). -/
theorem Effect.of_scan {s t : State} {tk : Option Byte} (e : Effect s tk t) (ht : t.st.isScan = true) :
    (∃ b, tk = some b ∧ s.st.isScan = true ∧ matchAfter s.win s.wcnt b = false ∧ t = s.shifted b) ∨
      s.st = .decoding ∧ t.wcnt = 0 ∧ t.skip = 0 := by
  cases e with
  | shift b hscan hm => exact .inl ⟨b, rfl, hscan, hm, rfl⟩
  | deliver b z front hc => exact .inr ⟨hc.decoding, rfl, rfl⟩
  | malformed b z hc => exact .inr ⟨hc.decoding, rfl, rfl⟩
  | truncate hst => exact .inr ⟨hst, rfl, rfl⟩
  | capture b z hc => exact absurd hc.decoding (st_ne_of_isScan (s := s.captured b z) ht).1
  | hold hst => exact absurd hst (st_ne_of_isScan ht).2
  | sync | exhaust => cases ht

/-- Done is entered at the end of the stream, with EXHAUSTED, and held. -/
theorem Effect.of_done {s t : State} {tk : Option Byte} (e : Effect s tk t) (ht : t.st = .done) :
    (s.st.isScan = true ∧ tk = none ∧ t = { s with out := s.out ++ [.exhausted], st := .done }) ∨
      s.st = .done ∧ t = s := by
  cases e with
  | exhaust hscan => exact .inl ⟨hscan, rfl, rfl⟩
  | hold hst => exact .inr ⟨hst, rfl⟩
  | shift b hscan hm => exact absurd ht (st_ne_of_isScan hscan).2
  | capture b z hc =>
    have hst : s.st = .done := ht
    rw [hc.decoding] at hst
    cases hst
  | sync | deliver | malformed | truncate => cases ht

/-! ### One cell stored -/

@[simp] theorem State.captured_cnt_toNat {s : State} {b : Byte} {z : Word} (h : s.cnt.toNat < 65535) :
    (s.captured b z).cnt.toNat = s.cnt.toNat + 1 := cnt_add_one_toNat h

/-- The cell at CNT holds the captured byte, every other what it held. -/
theorem fbCell_captured (s : State) (b : Byte) (z : Word) (a : Nat) :
    fbCell (s.captured b z).fb a = if a = s.cnt.toNat then some b else fbCell s.fb a :=
  fbCell_fbPut s.fb s.cnt.toNat a b

theorem fbCell_captured_self (s : State) (b : Byte) (z : Word) :
    fbCell (s.captured b z).fb s.cnt.toNat = some b := by
  rw [fbCell_captured, if_pos rfl]

theorem fbCell_captured_of_ne {s : State} (b : Byte) (z : Word) {a : Nat} (h : a ≠ s.cnt.toNat) :
    fbCell (s.captured b z).fb a = fbCell s.fb a := by
  rw [fbCell_captured, if_neg h]

/-- The size a captured byte goes by, from the length field's two cells (I-4). -/
theorem Captures.size_cells {s : State} {b : Byte} {z : Word} (hc : Captures s b z) (h : TsizeDecoded s)
    (h16 : 16 ≤ s.cnt.toNat) :
    ∃ hi lo, fbCell (s.captured b z).fb 15 = some hi ∧ fbCell (s.captured b z).fb 16 = some lo ∧
      z = assembleTotalSize hi lo := by
  obtain hcnt | hcnt := h16.eq_or_lt
  · obtain ⟨hi, hfb, hz⟩ := (sizeWith_of_cnt_eq hcnt.symm).1 hc.size
    refine ⟨hi, b, ?_, ?_, hz⟩
    · rw [fbCell_captured_of_ne b z (by omega), hfb]
    · rw [hcnt, fbCell_captured_self]
  · have hz : z = s.tsize := (sizeWith_of_cnt_ne hcnt.ne').1 hc.size
    rw [fbCell_captured_of_ne b z (by omega), fbCell_captured_of_ne b z (by omega), hz]
    have hdec := h hc.decoding hcnt
    split at hdec
    · rename_i hi lo hhi hlo
      exact ⟨hi, lo, hhi, hlo, Option.some.inj hdec⟩
    · cases hdec

/-! ### Each invariant over an effect -/

section Kept

variable {s t : State} {tk : Option Byte} (e : Effect s tk t)
include e

/-- I-1 is kept. -/
theorem Effect.cntZeroOutside (h : CntZeroOutside s) : CntZeroOutside t := by
  intro ht
  cases e with
  | shift b hscan hm => exact h ht
  | exhaust hscan => exact h (st_ne_of_isScan hscan).1
  | sync b hscan hm => exact absurd rfl ht
  | capture b z hc hmore => exact absurd hc.decoding ht
  | deliver | malformed | truncate => rfl
  | hold hst => exact h ht

/-- I-2 is kept: LEN.LO goes on only with a size above 17, PAY.BYTE only below the size. -/
theorem Effect.cntInFrame (h : CntInFrame s) : CntInFrame t := by
  intro ht
  obtain ⟨b, -, -, -, rfl⟩ | ⟨b, z, -, hc, rfl, hmore⟩ := e.of_decoding ht
  · exact ⟨le_rfl, .inl (by decide : (4 : Word).toNat ≤ 16)⟩
  · obtain ⟨-, hfixed | ⟨hlegal, hpay, hlt⟩⟩ := h hc.decoding
    all_goals
      rw [State.captured_cnt_toNat hc.in_buffer]
      have h4 := hc.four_le
      change 4 ≤ s.cnt.toNat + 1 ∧ (s.cnt.toNat + 1 ≤ 16 ∨
        17 ≤ z.toNat ∧ 17 ≤ s.cnt.toNat + 1 ∧ s.cnt.toNat + 1 < z.toNat)
    · omega
    · have hz : z = s.tsize := (sizeWith_of_cnt_ne (by omega)).1 hc.size
      subst hz
      omega

/-- I-3 is kept: only a match stores below index 4. -/
theorem Effect.syncInBuffer (h : SyncInBuffer s) : SyncInBuffer t := by
  intro ht
  obtain ⟨b, -, -, -, rfl⟩ | ⟨b, z, -, hc, rfl, -⟩ := e.of_decoding ht
  · exact ⟨fbCell_beginFrame _ 0, fbCell_beginFrame _ 1, fbCell_beginFrame _ 2, fbCell_beginFrame _ 3⟩
  · have h4 := hc.four_le
    have hkeep {a : Nat} (ha : a < 4) := fbCell_captured_of_ne (s := s) b z (a := a) (by omega)
    rw [hkeep (by decide), hkeep (by decide), hkeep (by decide), hkeep (by decide)]
    exact h hc.decoding

/-- R47's condition is kept: CNT moves with the store. -/
theorem Effect.writtenBelowCnt (h : WrittenBelowCnt s) : WrittenBelowCnt t := by
  intro ht i hi
  obtain ⟨b, -, -, -, rfl⟩ | ⟨b, z, -, hc, rfl, -⟩ := e.of_decoding ht
  · have hi4 : i < 4 := hi
    rw [State.synced, fbCell_beginFrame]
    interval_cases i <;> rfl
  · rw [State.captured_cnt_toNat hc.in_buffer] at hi
    rw [fbCell_captured]
    split_ifs with hself
    · rfl
    · exact h hc.decoding i (by omega)

/-- I-4 is kept: LEN.LO decodes the two cells, and no later byte stores there. -/
theorem Effect.tsizeDecoded (h : TsizeDecoded s) : TsizeDecoded t := by
  intro ht h17
  obtain ⟨b, -, -, -, rfl⟩ | ⟨b, z, -, hc, rfl, -⟩ := e.of_decoding ht
  · exact absurd h17 (by decide : ¬ 17 ≤ (4 : Word).toNat)
  · rw [State.captured_cnt_toNat hc.in_buffer] at h17
    obtain ⟨hi, lo, hhi, hlo, hz⟩ := hc.size_cells h (by omega)
    rw [hhi, hlo]
    exact congrArg some hz

/-- WCNT stays at most 4 (R23). -/
theorem Effect.wcnt_le (h : s.wcnt.toNat ≤ 4) : t.wcnt.toNat ≤ 4 := by
  have hfill : (fillNext s.wcnt).toNat ≤ 4 := by rw [fillNext_toNat]; omega
  cases e with
  | shift | sync => exact hfill
  | deliver | malformed | truncate => exact Nat.zero_le 4
  | exhaust | capture | hold => exact h

/-- I-6's part is kept: SKIP counts only from a full window on. -/
theorem Effect.windowCounted (h : WindowCounted s) : WindowCounted t := by
  refine ⟨e.wcnt_le h.1, fun ht hlt => ?_⟩
  obtain ⟨b, -, hscan, -, rfl⟩ | ⟨-, -, hskip⟩ := e.of_scan ht
  · have hfill : (fillNext s.wcnt).toNat < 4 := hlt
    rw [fillNext_toNat] at hfill
    change s.skipCounted.toNat = 0
    rw [skipCounted_toNat, if_neg (by omega)]
    exact h.2 hscan (by omega)
  · rw [hskip]
    rfl

/-- I-7 is kept: a shifted byte is one on which the match test fails. -/
theorem Effect.windowNotSync : WindowNotSync t := by
  intro ht h4
  obtain ⟨b, -, -, hm, rfl⟩ | ⟨-, hwcnt, -⟩ := e.of_scan ht
  · have hfull : fillNext s.wcnt = 4 := BitVec.eq_of_toNat_eq h4
    rwa [matchAfter, hfull, beq_self_eq_true, Bool.true_and] at hm
  · rw [hwcnt] at h4
    cases h4

/-- I-8's part is kept: Done is entered with EXHAUSTED. -/
theorem Effect.doneAfterExhausted (h : DoneAfterExhausted s) : DoneAfterExhausted t := by
  intro ht
  obtain ⟨-, -, rfl⟩ | ⟨hst, rfl⟩ := e.of_done ht
  · exact List.getLast?_append_of_ne_nil _ (List.cons_ne_nil _ _)
  · exact h hst

/-- The frame buffer keeps its canonical form. -/
theorem Effect.wf (h : Memory.wf s.fb = true) : Memory.wf t.fb = true := by
  cases e with
  | sync b hscan hm => exact wf_beginFrame (s := { s.shifted b with out := _ }) h
  | capture b z hc | deliver b z front hc | malformed b z hc => exact wf_fbPut b hc.in_buffer h
  | shift | exhaust | truncate | hold => exact h

/-- All of them together. -/
theorem Effect.blockInv (h : BlockInv s) : BlockInv t := by
  obtain ⟨hcnt, hframe, hsync, hwritten, htsize, hwindow, -, hdone, hwf⟩ := h
  exact ⟨e.cntZeroOutside hcnt, e.cntInFrame hframe, e.syncInBuffer hsync, e.writtenBelowCnt hwritten,
    e.tsizeDecoded htsize, e.windowCounted hwindow, e.windowNotSync, e.doneAfterExhausted hdone, e.wf hwf⟩

end Kept

/-- The invariants hold after RESET over any canonical frame buffer and any events. -/
theorem blockInv_reset {fb : List Host.Cell} (hfb : Memory.wf fb = true) (es : List Event)
    (xs : List Byte) (ps : List ResetPlan) :
    BlockInv { State.reset with fb := fb, out := es, input := xs, plan := ps } :=
  ⟨fun _ => rfl, nofun, nofun, nofun, nofun, ⟨Nat.zero_le 4, fun _ _ => rfl⟩, fun _ => nofun, nofun, hfb⟩

/-- Settles O27: `blockInv_reset` over the empty frame buffer. -/
theorem invAtReset : Obligations.InvAtReset :=
  ⟨blockInv_reset wf_reset [] [] [], blockInv_reset wf_reset []⟩

/-- Settles O28: every effect keeps the invariants (`Effect.blockInv`), and RESET keeps the frame buffer. -/
theorem invKeptByEveryStep : Obligations.InvKeptByEveryStep := by
  intro s t h hstep
  refine step_preserves (P := BlockInv) hstep (fun _ _ _ ht => ht) (fun _ _ e => e.blockInv h) ?_
  obtain ⟨-, -, -, -, -, -, -, -, hwf⟩ := h
  exact blockInv_reset hwf s.out [] []

/-! ### Where nothing stops -/

/-- What keeps a step from stopping: I-1, I-2 and that the cells below CNT are written. -/
structure FrameInv (s : State) : Prop where
  cnt_zero : CntZeroOutside s
  in_frame : CntInFrame s
  written : WrittenBelowCnt s

theorem FrameInv.of_blockInv {s : State} (h : BlockInv s) : FrameInv s := by
  obtain ⟨hcnt, hframe, -, hwritten, -⟩ := h
  exact ⟨hcnt, hframe, hwritten⟩

theorem Effect.frameInv {s t : State} {tk : Option Byte} (e : Effect s tk t) (h : FrameInv s) : FrameInv t :=
  ⟨e.cntZeroOutside h.cnt_zero, e.cntInFrame h.in_frame, e.writtenBelowCnt h.written⟩

/-- Written cells hold some list of bytes. -/
theorem exists_holdsBytes {fb : List Host.Cell} {n : Nat} (h : ∀ i, i < n → (fbCell fb i).isSome = true) :
    ∃ bs : List Byte, bs.length = n ∧ HoldsBytes fb bs := by
  induction n with
  | zero => exact ⟨[], rfl, fun _ hi => absurd hi (Nat.not_lt_zero _)⟩
  | succ n ih =>
    obtain ⟨bs, hlen, hbs⟩ := ih fun i hi => h i (by omega)
    obtain ⟨b, hb⟩ := Option.isSome_iff_exists.1 (h n (by omega))
    refine ⟨bs ++ [b], by rw [List.length_append, hlen]; rfl, fun i hi => ?_⟩
    rw [List.length_append, List.length_singleton] at hi
    obtain hlt | rfl : i < bs.length ∨ i = bs.length := by omega
    · rw [List.getElem?_append_left hlt, hbs i hlt]
    · rw [List.getElem?_concat_length, hlen, hb]

/-- Where the cells below CNT are written, the captured part of a frame is readable. -/
theorem exists_memRead {s : State} (hst : s.st = .decoding) (h : WrittenBelowCnt s) :
    ∃ front, s.memRead 0 s.cnt.toNat = .ok front := by
  obtain ⟨front, hlen, hfront⟩ := exists_holdsBytes (h hst)
  exact ⟨front, memRead_of_holdsBytes hst hlen hfront⟩

/-- In its row every operation answers, given what keeps a step from stopping. -/
theorem exec_answers {i : Instr} {s : State} (h : FrameInv s) (hrow : i.row s.ctx = true) :
    ∃ t, exec i s = .next t := by
  cases i with
  | scanShift b =>
    obtain ⟨hscan, hm⟩ := row_scanShift.1 hrow
    exact ⟨_, execScanShift_of_row hscan hm⟩
  | scanMatch b =>
    obtain ⟨hscan, hm⟩ := row_scanMatch.1 hrow
    exact ⟨_, execScanMatch_of_row hscan hm⟩
  | scanEos => exact ⟨_, execScanEos_of_row (row_scanEos.1 hrow)⟩
  | hdrByte b =>
    obtain ⟨hst, hlo, hhi⟩ := row_hdrByte.1 hrow
    exact ⟨_, execHdrByte_of_row hst hlo hhi⟩
  | lenHi b =>
    obtain ⟨hst, hcnt⟩ := row_lenHi.1 hrow
    exact ⟨_, execLenHi_of_row hst hcnt⟩
  | lenLo b =>
    obtain ⟨hst, hcnt⟩ := row_lenLo.1 hrow
    have hcnt' : s.cnt.toNat = 16 := hcnt
    obtain ⟨hi, hhi⟩ := Option.isSome_iff_exists.1 (h.written hst 15 (by omega))
    obtain ⟨front, hread⟩ := exists_memRead hst h.written
    rw [hcnt'] at hread
    rw [exec_lenLo, execLenLo_of_row hst hcnt hhi, hread, orFault_ok]
    split_ifs <;> exact ⟨_, rfl⟩
  | payByte b =>
    obtain ⟨hst, hlo⟩ := row_payByte.1 hrow
    have hlo' : 17 ≤ s.cnt.toNat := hlo
    obtain ⟨-, hfixed | ⟨-, -, hlt⟩⟩ := h.in_frame hst
    · omega
    obtain ⟨front, hread⟩ := exists_memRead hst h.written
    rw [exec_payByte, execPayByte_of_row hst hlo (cnt_lt_of_lt_tsize hlt), hread, orFault_ok]
    split_ifs <;> exact ⟨_, rfl⟩
  | decEos => exact ⟨_, execDecEos_of_row (row_decEos.1 hrow)⟩
  | doneHold => exact ⟨_, execDoneHold_of_row (row_doneHold.1 hrow)⟩
  | reset => exact ⟨_, execReset_eq s⟩

/-- A step neither faults nor refuses, given what keeps it from stopping. -/
theorem FrameInv.step_answers {s : State} (h : FrameInv s) : ∃ t, step s = .next t := by
  obtain ⟨i, hfetch⟩ := operationMapTotal.1 s.resetIn s.ctx s.presented.word fun hst => (h.in_frame hst).1
  obtain ⟨t, ht⟩ := exec_answers h (row_of_fetch hfetch)
  exact ⟨t.advanceEnv i, by rw [step_of_fetch hfetch, ht]; rfl⟩

/-- Settles O29. -/
theorem invNeverStops : Obligations.InvNeverStops := fun _ h => (FrameInv.of_blockInv h).step_answers

/-- What every step answers with and keeps, any number of steps answer with and keep. -/
theorem steps_answer {P : State → Prop} (h : ∀ s, P s → ∃ t, step s = .next t ∧ P t) (k : Nat) (s : State)
    (hs : P s) : ∃ t, steps k s = .next t ∧ P t := by
  induction k generalizing s with
  | zero => exact ⟨s, rfl, hs⟩
  | succ k ih =>
    obtain ⟨t, hstep, ht⟩ := h s hs
    rw [steps_succ_of_next k hstep]
    exact ih t ht

/-- Settles O30: the invariants hold at the start, every step answers under them and keeps them. -/
theorem noEnvironmentStops : Obligations.NoEnvironmentStops := fun bs ps k =>
  steps_answer (P := BlockInv) (fun s hs => by
    obtain ⟨t, ht⟩ := invNeverStops s hs
    exact ⟨t, ht, invKeptByEveryStep s t hs ht⟩) k _ (blockInv_reset wf_reset [] bs ps)

/-! ### Progress -/

/-- A step outside Done takes the next byte, or finds the stream ended and moves towards Done. -/
theorem Effect.progress {s t : State} {tk : Option Byte} (e : Effect s tk t) (hst : s.st ≠ .done) :
    (∃ b, tk = some b) ∨ tk = none ∧
      ((s.st = .decoding ∧ t.st = .recovering) ∨
        ((s.st = .scanning ∨ s.st = .recovering) ∧ t.st = .done)) := by
  cases e with
  | shift b | sync b | capture b | deliver b | malformed b => exact .inl ⟨b, rfl⟩
  | exhaust hscan => exact .inr ⟨rfl, .inr ⟨(isScan_iff s.st).1 hscan, rfl⟩⟩
  | truncate hdec => exact .inr ⟨rfl, .inl ⟨hdec, rfl⟩⟩
  | hold hdone => exact absurd hdone hst

/-- Settles O34: a step answers (`invNeverStops`), and its effect is one of `Effect.progress`. -/
theorem everyStepProgresses : Obligations.EveryStepProgresses := by
  intro s h hreset hst
  obtain ⟨u, hu⟩ := invNeverStops s h
  refine ⟨u, hu, ?_⟩
  obtain ⟨tk, t, xs, e, rfl, hsplit, hend⟩ := step_effect hreset hu
  obtain ⟨b, rfl⟩ | ⟨rfl, hmove⟩ := e.progress hst
  · exact .inl ⟨b, hsplit⟩
  · have hin : s.input = [] := hend rfl hst
    exact .inr ⟨hin, hsplit.symm.trans hin, hmove⟩

/-! ### Messages -/

/-- A step that emits a MSG captured the frame's last byte (R93, R94). -/
theorem Effect.of_msg {s t : State} {tk : Option Byte} {raw : List Byte} {n : Word} (e : Effect s tk t)
    (hout : t.out = s.out ++ [.msg raw n]) :
    ∃ b front, tk = some b ∧ raw = front ++ [b] ∧ Captures s b n ∧ 16 ≤ s.cnt.toNat ∧
      s.cnt.toNat + 1 = n.toNat ∧ s.memRead 0 s.cnt.toNat = .ok front ∧ t.fb = (s.captured b n).fb := by
  have hkeep : s.out ≠ s.out ++ [.msg raw n] := by simp
  cases e with
  | deliver b z front hc h16 hlast hread =>
    obtain ⟨rfl, rfl⟩ : front ++ [b] = raw ∧ z = n := by
      simpa [State.stored] using hout
    exact ⟨b, front, rfl, rfl, hc, h16, hlast, hread, rfl⟩
  | shift | capture | hold => exact absurd hout hkeep
  | sync | exhaust | malformed | truncate => cases List.append_cancel_left hout

/-- What a read of the captured part gives, and a store after it: the cells hold the bytes read and the byte
stored. -/
theorem holdsBytes_captured {s : State} {front : List Byte} (b : Byte) (z : Word)
    (hlen : front.length = s.cnt.toNat) (hfront : HoldsBytes s.fb front) :
    HoldsBytes (s.captured b z).fb (front ++ [b]) := by
  intro i hi
  rw [List.length_append, List.length_singleton] at hi
  obtain hlt | rfl : i < front.length ∨ i = front.length := by omega
  · rw [fbCell_captured_of_ne b z (by omega), hfront i hlt, List.getElem?_append_left hlt]
  · rw [hlen, fbCell_captured_self, ← hlen, List.getElem?_concat_length]

/-- A read of the cells below CNT gives bytes the cells hold. -/
theorem holdsBytes_of_memRead {s : State} {n : Nat} {front : List Byte} (h : s.memRead 0 n = .ok front) :
    front.length = n ∧ HoldsBytes s.fb front := by
  obtain ⟨hlen, hread⟩ := memRead_ok h
  refine ⟨hlen, fun i hi => ?_⟩
  have hcell := (readFb_ok.1 (hread i (hlen ▸ hi))).2.2
  rw [Nat.zero_add] at hcell
  rw [hcell, List.getD_eq_getElem?_getD, List.getElem?_eq_getElem hi, Option.getD_some]

/-- The first four of bytes that cells hold, when these cells hold the sync word. -/
theorem syncView_of_holdsBytes {fb : List Host.Cell} {bs : List Byte} (hbs : HoldsBytes fb bs)
    (hlen : 4 ≤ bs.length) (h0 : fbCell fb 0 = some 0xFA) (h1 : fbCell fb 1 = some 0xFA)
    (h2 : fbCell fb 2 = some 0xF0) (h3 : fbCell fb 3 = some 0xF0) : syncView bs = Config.syncWord := by
  have e {i : Nat} (hi : i < 4) : bs[i]? = fbCell fb i := (hbs i (by omega)).symm
  refine List.ext_getElem? fun i => ?_
  rw [syncView, List.getElem?_take, Config.syncWord_eq]
  split_ifs with hi
  · rw [e hi]
    interval_cases i <;> assumption
  · rw [List.getElem?_eq_none (not_lt.1 hi)]

/-- Settles O32: MSG is emitted with the frame's last byte, over cells that hold the sync word (I-3), the
captured bytes and the length field the size was decoded from (I-4). -/
theorem messagesWellFormed : Obligations.MessagesWellFormed := by
  intro s u raw n ⟨_, _, hsync, _, htsize, _⟩ hstep hout
  have hreset : s.resetIn = false := by
    by_contra hr
    obtain ⟨xs, ps, rfl⟩ := step_reset (Bool.eq_true_of_not_eq_false hr) hstep
    simp at hout
  obtain ⟨tk, t, xs, e, rfl, hsplit, -⟩ := step_effect hreset hstep
  obtain ⟨b, front, rfl, rfl, hc, h16, hlast, hread, hfb⟩ := e.of_msg hout
  obtain ⟨hlen, hfront⟩ := holdsBytes_of_memRead hread
  have hraw : HoldsBytes (s.captured b n).fb (front ++ [b]) := holdsBytes_captured b n hlen hfront
  have hrawlen : (front ++ [b]).length = s.cnt.toNat + 1 := by rw [List.length_append, hlen]; rfl
  have hkeep {a : Nat} (ha : a < 4) : fbCell (s.captured b n).fb a = fbCell s.fb a :=
    fbCell_captured_of_ne b n (by omega)
  obtain ⟨h0, h1, h2, h3⟩ := hsync hc.decoding
  obtain ⟨hi, lo, hhi, hlo, hn⟩ := hc.size_cells htsize h16
  rw [hraw 15 (by omega)] at hhi
  rw [hraw 16 (by omega)] at hlo
  refine ⟨⟨?sync, by omega, by omega, hi, hhi, lo, hlo, ?size⟩, ?held, hrawlen, ?header, ?payload, ?last⟩
  case sync =>
    exact syncView_of_holdsBytes hraw (by omega) ((hkeep (by decide)).trans h0)
      ((hkeep (by decide)).trans h1) ((hkeep (by decide)).trans h2) ((hkeep (by decide)).trans h3)
  case size => rw [hn, assembleTotalSize_toNat]
  case held => exact hfb ▸ hraw
  case header => rw [headerView, List.length_take, List.length_drop]; omega
  case payload => rw [payloadView, List.length_drop]; omega
  case last => rw [hsplit, ← hlen, List.getElem?_concat_length]; rfl

end Sys2Proof.Machine
end

section
/-! What an operation reads (spec/41_frame_decoder.md R102, 42_control_fsm.md R106): two states that agree on it
have the same outcome. -/

namespace Sys2Proof.Machine

/-! ### Same outcomes, construct by construct -/

section Outcomes

variable {rel : State → State → Prop} {s s' : State}

/-- Two guarded operations have the same outcome if the row holds in both states or in neither, and the bodies
do where it holds. -/
theorem SameOutcome.whenSelected {i : Instr} {k k' : StepResult} (hrow : i.row s'.ctx = i.row s.ctx)
    (h : i.row s.ctx = true → SameOutcome rel k k') :
    SameOutcome rel (s.whenSelected i k) (s'.whenSelected i k') := by
  cases hsel : i.row s.ctx with
  | true =>
    rw [whenSelected_of_row hsel, whenSelected_of_row (hrow.trans hsel)]
    exact h hsel
  | false =>
    rw [whenSelected_of_not_row hsel, whenSelected_of_not_row (hrow.trans hsel)]
    rfl

/-- Going on after equal reads. -/
theorem SameOutcome.orFault {α : Type} {r r' : Except Fault α} {k k' : α → StepResult} (hr : r' = r)
    (h : ∀ a, SameOutcome rel (k a) (k' a)) : SameOutcome rel (orFault r k) (orFault r' k') := by
  subst hr
  cases r' with
  | ok a => exact h a
  | error f => rfl

/-- Going on after a store at the same index. -/
theorem SameOutcome.memWrite {i : Nat} {b : Byte} {k k' : State → StepResult}
    (h : SameOutcome rel (k { s with fb := fbPut s.fb i b }) (k' { s' with fb := fbPut s'.fb i b })) :
    SameOutcome rel (Machine.orFault (s.memWrite i b) k) (Machine.orFault (s'.memWrite i b) k') := by
  unfold State.memWrite
  split_ifs
  · exact h
  · rfl

/-- An operation whose row holds in neither state. -/
theorem SameOutcome.of_not_row {i : Instr} (h : i.row s.ctx = false) (h' : i.row s'.ctx = false) :
    SameOutcome rel (exec i s) (exec i s') := by
  rw [offRowRefused i s h, offRowRefused i s' h']
  rfl

end Outcomes

/-! ### The operations by the unit that performs them -/

/-- The operations of the frame decoder (R90). -/
def decodes : Instr → Bool
  | .hdrByte _ | .lenHi _ | .lenLo _ | .payByte _ | .decEos => true
  | .scanShift _ | .scanMatch _ | .scanEos | .doneHold | .reset => false

/-- The operations of the scanner (R80). -/
def scans : Instr → Bool
  | .scanShift _ | .scanMatch _ | .scanEos => true
  | .hdrByte _ | .lenHi _ | .lenLo _ | .payByte _ | .decEos | .doneHold | .reset => false

/-- In Decoding only the frame decoder's operations and RESET are in their row. -/
theorem row_of_not_decodes {i : Instr} {c : Ctx} (hst : c.st = .decoding) (hi : decodes i = false)
    (hne : i ≠ .reset) : i.row c = false := by
  cases i with
  | scanShift | scanMatch | scanEos | doneHold => simp only [Instr.row, hst]; rfl
  | hdrByte | lenHi | lenLo | payByte | decEos => cases hi
  | reset => exact absurd rfl hne

/-- In a scan state only the scanner's operations and RESET are in their row. -/
theorem row_of_not_scans {i : Instr} {c : Ctx} (hst : c.st = .scanning ∨ c.st = .recovering)
    (hi : scans i = false) (hne : i ≠ .reset) : i.row c = false := by
  cases i with
  | scanShift | scanMatch | scanEos => cases hi
  | hdrByte | lenHi | lenLo | payByte | decEos | doneHold =>
    obtain hst | hst := hst <;> simp only [Instr.row, hst] <;> rfl
  | reset => exact absurd rfl hne

/-! ### What the frame decoder reads -/

/-- A read of FB depends on ST, CNT and FB only. -/
theorem memRead_congr {s s' : State} (hst : s'.st = s.st) (hcnt : s'.cnt = s.cnt) (hfb : s'.fb = s.fb)
    (a n : Nat) : s'.memRead a n = s.memRead a n := by
  have hread (i : Nat) : s'.readFb i = s.readFb i := by simp only [State.readFb, hst, hcnt, hfb]
  induction n with
  | zero => rfl
  | succ n ih => simp only [State.memRead, ih, hread]

/-- Settles O38: the scanner's operations are off their rows in Decoding; the frame decoder's read only ST, CNT,
TSIZE and FB, go on without a write of W, WCNT or SKIP, and clear WCNT and SKIP where the attempt ends. -/
theorem decoderIgnoresScanner : Obligations.DecoderIgnoresScanner := by
  intro i s w n k hst hne
  have hread (m : Nat) : State.memRead { s with win := w, wcnt := n, skip := k } 0 m = s.memRead 0 m :=
    memRead_congr (by rfl) (by rfl) (by rfl) 0 m
  cases hi : decodes i with
  | false => exact .of_not_row (row_of_not_decodes hst hi hne) (row_of_not_decodes hst hi hne)
  | true =>
    cases i with
    | hdrByte b | lenHi b =>
      refine .whenSelected rfl fun _ => .memWrite ?_
      exact ⟨rfl, rfl, .inl ⟨hst, rfl, rfl, rfl, rfl⟩⟩
    | lenLo b =>
      refine .whenSelected rfl fun _ => .orFault rfl fun hi => .memWrite ?_
      dsimp only
      split_ifs
      · exact ⟨rfl, rfl, .inr ⟨nofun, rfl, rfl, rfl, rfl⟩⟩
      · refine .orFault (hread 16) fun front => ?_
        exact ⟨rfl, rfl, .inr ⟨nofun, rfl, rfl, rfl, rfl⟩⟩
      · exact ⟨rfl, rfl, .inl ⟨hst, rfl, rfl, rfl, rfl⟩⟩
    | payByte b =>
      refine .whenSelected rfl fun _ => .orFault rfl fun t => .memWrite ?_
      dsimp only
      split_ifs
      · refine .orFault (hread _) fun front => ?_
        exact ⟨rfl, rfl, .inr ⟨nofun, rfl, rfl, rfl, rfl⟩⟩
      · exact ⟨rfl, rfl, .inl ⟨hst, rfl, rfl, rfl, rfl⟩⟩
    | decEos =>
      refine .whenSelected rfl fun _ => ?_
      exact ⟨rfl, rfl, .inr ⟨nofun, rfl, rfl, rfl, rfl⟩⟩
    | scanShift | scanMatch | scanEos | doneHold | reset => cases hi

/-! ### What the scanner reads -/

/-- In two scan states that agree on WCNT and SKIP a shift counts alike. -/
theorem skipAfterShift_congr {s s' : State} (h : s.st.isScan = true) (h' : s'.st.isScan = true)
    (hwcnt : s'.wcnt = s.wcnt) (hskip : s'.skip = s.skip) : s'.skipAfterShift = s.skipAfterShift := by
  rw [skipAfterShift_of_scan h, skipAfterShift_of_scan h', hwcnt, hskip]

/-- Settles O39: only the scanner's operations are in their rows; they read ST, W, WCNT and SKIP, and only
SCAN.MATCH writes to FB, CNT and TSIZE, values of its own. -/
theorem scannerIgnoresFrame : Obligations.ScannerIgnoresFrame := by
  intro i s fb c z hst hne
  have hscan : s.st.isScan = true := (isScan_iff s.st).2 hst
  obtain ⟨hdec, -⟩ := st_ne_of_isScan hscan
  have hskip : State.skipAfterShift { s with fb := fb, cnt := c, tsize := z } = s.skipAfterShift :=
    skipAfterShift_congr hscan hscan rfl rfl
  cases hi : scans i with
  | false => exact .of_not_row (row_of_not_scans hst hi hne) (row_of_not_scans hst hi hne)
  | true =>
    cases i with
    | scanShift b =>
      refine .whenSelected rfl fun _ => .orFault hskip fun k => ?_
      exact ⟨rfl, .inr ⟨hdec, rfl, rfl, rfl, rfl, rfl, rfl⟩⟩
    | scanMatch b =>
      refine .whenSelected rfl fun _ => .orFault hskip fun k => ?_
      refine ⟨rfl, .inl ⟨rfl, rfl, rfl, rfl, rfl, fun a ha => ?_⟩⟩
      rw [fbCell_beginFrame, fbCell_beginFrame]
      interval_cases a <;> rfl
    | scanEos =>
      refine .whenSelected rfl fun _ => ?_
      exact ⟨rfl, .inr ⟨nofun, rfl, rfl, rfl, rfl, rfl, rfl⟩⟩
    | hdrByte | lenHi | lenLo | payByte | decEos | doneHold | reset => cases hi

/-- Settles O37: RESET answers the same from any ST; of the rest only the scanner's operations are in their rows,
whose condition on ST is the same for both scan states. -/
theorem recoveringScansAlike : Obligations.RecoveringScansAlike := by
  intro i s hst
  have hscan : s.st.isScan = true := (isScan_iff s.st).2 (.inl hst)
  have hskip : State.skipAfterShift { s with st := .recovering } = s.skipAfterShift :=
    skipAfterShift_congr hscan rfl rfl rfl
  have hrow : scans i = true → i.row (State.ctx { s with st := .recovering }) = i.row s.ctx := by
    intro hi
    cases i with
    | scanShift | scanMatch | scanEos => simp only [Instr.row, State.ctx, hst]; rfl
    | _ => cases hi
  cases hi : scans i with
  | false =>
    by_cases hne : i = .reset
    · subst hne
      rw [exec_reset, exec_reset, execReset_eq, execReset_eq]
      exact ⟨rfl, .inl rfl⟩
    · exact .of_not_row (row_of_not_scans (.inl hst) hi hne) (row_of_not_scans (.inr rfl) hi hne)
  | true =>
    cases i with
    | scanShift b =>
      refine .whenSelected (hrow rfl) fun _ => .orFault hskip fun k => ?_
      exact ⟨rfl, .inr ⟨hst, rfl⟩⟩
    | scanMatch b =>
      refine .whenSelected (hrow rfl) fun _ => .orFault hskip fun k => ?_
      exact ⟨rfl, .inl rfl⟩
    | scanEos =>
      refine .whenSelected (hrow rfl) fun _ => ?_
      exact ⟨rfl, .inl rfl⟩
    | hdrByte | lenHi | lenLo | payByte | decEos | doneHold | reset => cases hi

/-! ### No operation reads the stream -/

/-- An operation sees the stream through the presented symbol only, which its operand holds. -/
theorem exec_input_congr (i : Instr) (s : State) (xs : List Byte) :
    SameOutcome (fun t u => u = { t with input := xs }) (exec i s) (exec i { s with input := xs }) := by
  have hread (m : Nat) : State.memRead { s with input := xs } 0 m = s.memRead 0 m :=
    memRead_congr (by rfl) (by rfl) (by rfl) 0 m
  cases i with
  | scanShift b | scanMatch b => exact .whenSelected rfl fun _ => .orFault rfl fun _ => rfl
  | hdrByte b | lenHi b => exact .whenSelected rfl fun _ => .memWrite rfl
  | lenLo b =>
    refine .whenSelected rfl fun _ => .orFault rfl fun hi => .memWrite ?_
    dsimp only
    split_ifs
    · rfl
    · exact .orFault (hread 16) fun _ => rfl
    · rfl
  | payByte b =>
    refine .whenSelected rfl fun _ => .orFault rfl fun t => .memWrite ?_
    dsimp only
    split_ifs
    · exact .orFault (hread _) fun _ => rfl
    · rfl
  | scanEos | decEos | doneHold =>
    refine .whenSelected rfl fun _ => ?_
    rfl
  | reset =>
    rw [exec_reset, exec_reset, execReset_eq, execReset_eq]
    rfl

end Sys2Proof.Machine
end

section
/-! The scan window (spec/10_state.md section 2, 40_scanner.md R81): the bytes of it that belong to the scan, as
a list that a shift appends to. -/

namespace Sys2Proof.Machine

/-- The last four bytes of a list, or all of a shorter one. -/
def lastFour (l : List Byte) : List Byte := l.drop (l.length - 4)

@[simp] theorem lastFour_length (l : List Byte) : (lastFour l).length = min 4 l.length := by
  rw [lastFour, List.length_drop]
  omega

theorem lastFour_suffix (l : List Byte) : lastFour l <:+ l := List.drop_suffix _ l

/-- A list of at most four bytes ends another exactly when it ends its last four bytes. -/
theorem suffix_lastFour_iff {l m : List Byte} (h : l.length ≤ 4) : l <:+ lastFour m ↔ l <:+ m := by
  refine ⟨fun hl => hl.trans (lastFour_suffix m), fun hl => ?_⟩
  refine List.suffix_of_suffix_length_le hl (lastFour_suffix m) ?_
  rw [lastFour_length]
  exact le_min h hl.length_le

/-- What a list of at most four bytes is, when it ends another and is as long as it can be. -/
theorem eq_lastFour {l m : List Byte} (h : l <:+ m) (hlen : l.length = min 4 m.length) : l = lastFour m := by
  refine ((suffix_lastFour_iff (by omega)).2 h).eq_of_length ?_
  rw [lastFour_length, hlen]

/-- One more byte moves the last four bytes on. -/
theorem lastFour_snoc (l : List Byte) (b : Byte) : lastFour (lastFour l ++ [b]) = lastFour (l ++ [b]) := by
  refine eq_lastFour ((lastFour_suffix _).trans ?_) ?_
  · exact (List.suffix_append_self_iff).2 (lastFour_suffix l)
  · simp only [lastFour_length, List.length_append, List.length_singleton]
    omega

/-- A byte ends a list with a byte appended when it is that byte and what stands before it ends the list. -/
theorem snoc_suffix_snoc_iff {l m : List Byte} {a b : Byte} : l ++ [a] <:+ m ++ [b] ↔ l <:+ m ∧ a = b := by
  rw [List.suffix_append_inj_of_length_eq (s₁ := [a]) (s₂ := [b]) rfl, List.singleton_inj]

/-- The sync word is its first three bytes and F0. -/
theorem syncWord_eq_snoc : Config.syncWord = Config.syncWord.take 3 ++ [0xF0] := rfl

/-- The sync word ends with a byte exactly when its first three bytes stand before F0. -/
theorem syncWord_suffix_snoc_iff {l : List Byte} {b : Byte} :
    Config.syncWord <:+ l ++ [b] ↔ Config.syncWord.take 3 <:+ l ∧ b = 0xF0 := by
  rw [syncWord_eq_snoc, snoc_suffix_snoc_iff, ← syncWord_eq_snoc, eq_comm (a := (0xF0 : Byte))]

/-! ### The window as a list -/

@[simp] theorem scanWindow_length (s : State) : (scanWindow s).length = min 4 s.wcnt.toNat := by
  rw [scanWindow, List.length_drop]
  change 4 - (4 - s.wcnt.toNat) = _
  omega

/-- An empty window holds no byte of the scan, whatever stands in the registers. -/
theorem scanWindow_of_wcnt_zero {s : State} (h : s.wcnt.toNat = 0) : scanWindow s = [] :=
  List.length_eq_zero_iff.1 (by rw [scanWindow_length, h]; rfl)

/-- A full window is the four registers. -/
theorem scanWindow_of_full {s : State} (h : 4 ≤ s.wcnt.toNat) :
    scanWindow s = [s.win.w0, s.win.w1, s.win.w2, s.win.w3] := by
  rw [scanWindow, Nat.sub_eq_zero_of_le h, List.drop_zero]

/-- A shift appends to the window and drops what no longer fits (R22, R23). -/
theorem scanWindow_shifted (s : State) (b : Byte) :
    scanWindow (s.shifted b) = lastFour (scanWindow s ++ [b]) := by
  have hfill : (s.shifted b).wcnt.toNat = min 4 (s.wcnt.toNat + 1) := fillNext_toNat s.wcnt
  by_cases hfull : 4 ≤ s.wcnt.toNat
  · rw [scanWindow_of_full hfull, scanWindow_of_full (by omega)]
    rfl
  · rw [scanWindow, scanWindow, hfill]
    have hlt : s.wcnt.toNat < 4 := not_le.1 hfull
    interval_cases s.wcnt.toNat <;> rfl

/-- The match test asks whether the byte completes the sync word at the window's end (R81). -/
theorem matchAfter_iff_suffix (s : State) (b : Byte) :
    matchAfter s.win s.wcnt b = true ↔ Config.syncWord <:+ scanWindow s ++ [b] := by
  have hfill : (s.shifted b).wcnt.toNat = min 4 (s.wcnt.toNat + 1) := fillNext_toNat s.wcnt
  rw [matchAfter_iff_bytes, ← suffix_lastFour_iff le_rfl, ← scanWindow_shifted]
  constructor
  · rintro ⟨hfull, h1, h2, h3, hb⟩
    have hw : scanWindow (s.shifted b) = [s.win.w1, s.win.w2, s.win.w3, b] := scanWindow_of_full (by omega)
    rw [hw, h1, h2, h3, hb]
    exact List.suffix_rfl
  · intro hsuf
    have hlen := hsuf.length_le
    rw [scanWindow_length, Config.syncWord_length] at hlen
    have hw : scanWindow (s.shifted b) = [s.win.w1, s.win.w2, s.win.w3, b] := scanWindow_of_full (by omega)
    rw [hw] at hsuf
    obtain ⟨h1, h2, h3, hb⟩ : 0xFA = s.win.w1 ∧ 0xFA = s.win.w2 ∧ 0xF0 = s.win.w3 ∧ 0xF0 = b := by
      simpa [Config.syncWord_eq] using hsuf.eq_of_length rfl
    exact ⟨by omega, h1.symm, h2.symm, h3.symm, hb.symm⟩

/-- A readable register of the window is the byte that far from the end of the scan (R36). -/
theorem readW_eq {s : State} (hscan : s.st.isScan = true) {k : Fin 4} (hk : k.val < s.wcnt.toNat) :
    ∃ b, s.readW k = .ok b ∧ (scanWindow s)[(scanWindow s).length - 1 - k.val]? = some b := by
  have hindex : (scanWindow s)[(scanWindow s).length - 1 - k.val]? =
      [s.win.w0, s.win.w1, s.win.w2, s.win.w3][3 - k.val]? := by
    rw [scanWindow_length, scanWindow, List.getElem?_drop]
    congr 1
    omega
  rw [hindex]
  match k with
  | 0 => exact ⟨_, readW_zero_of_scan hscan hk, rfl⟩
  | 1 => exact ⟨_, readW_one_of_scan hscan hk, rfl⟩
  | 2 => exact ⟨_, readW_two_of_scan hscan hk, rfl⟩
  | 3 => exact ⟨_, readW_three_of_scan hscan hk, rfl⟩

/-- From the end, a list and a list it ends hold the same bytes. -/
theorem getElem?_of_suffix {l m : List Byte} (h : l <:+ m) {k : Nat} (hk : k < l.length) :
    m[m.length - 1 - k]? = l[l.length - 1 - k]? := by
  obtain ⟨front, rfl⟩ := h
  rw [List.getElem?_append_right (by rw [List.length_append]; omega)]
  congr 1
  rw [List.length_append]
  omega

/-- The window holds the last bytes of a list exactly when its readable registers do. -/
theorem scanWindow_suffix_iff {s : State} {h : List Byte} (hscan : s.st.isScan = true)
    (hlen : s.wcnt.toNat ≤ h.length) : scanWindow s <:+ h ↔
      ∀ k : Fin 4, k.val < s.wcnt.toNat → ∃ b, s.readW k = .ok b ∧ h[h.length - 1 - k.val]? = some b := by
  constructor
  · intro hsuf k hk
    obtain ⟨b, hread, hb⟩ := readW_eq hscan hk
    refine ⟨b, hread, ?_⟩
    rw [getElem?_of_suffix hsuf (by rw [scanWindow_length]; omega), hb]
  · intro hreads
    refine List.suffix_iff_getElem?.2 ⟨by rw [scanWindow_length]; omega, fun i hi => ?_⟩
    have hi' := hi
    rw [scanWindow_length] at hi'
    have hk : min 4 s.wcnt.toNat - 1 - i < 4 := by omega
    obtain ⟨b, hread, hb⟩ := hreads ⟨_, hk⟩ (by change min 4 s.wcnt.toNat - 1 - i < _; omega)
    obtain ⟨b', hread', hb'⟩ := readW_eq hscan (k := ⟨_, hk⟩)
      (by change min 4 s.wcnt.toNat - 1 - i < _; omega)
    obtain rfl : b = b' := Except.ok.inj (hread.symm.trans hread')
    rw [List.getElem?_eq_getElem (by rw [scanWindow_length]; omega)] at hb'
    have hfrom : (scanWindow s)[i] = b := by
      rw [← Option.some.inj hb']
      congr 1
      change i = (scanWindow s).length - 1 - (min 4 s.wcnt.toNat - 1 - i)
      rw [scanWindow_length]
      omega
    rw [hfrom, ← hb, scanWindow_length]
    congr 1
    change _ = h.length - 1 - (min 4 s.wcnt.toNat - 1 - i)
    omega

end Sys2Proof.Machine
end

section
/-! The consumed history (spec/10_state.md R22, I-5, I-9): POS counts it, the window and the frame buffer hold
its last bytes. -/

namespace Sys2Proof.Machine

/-- The captured part of a frame is the last CNT bytes of a list exactly when the cells below CNT hold a list
that ends it. -/
theorem frame_suffix_iff {fb : List Host.Cell} {n : Nat} {h : List Byte} :
    (n ≤ h.length ∧ ∀ i, i < n → fbCell fb i = h[h.length - n + i]?) ↔
      ∃ raw, raw.length = n ∧ HoldsBytes fb raw ∧ raw <:+ h := by
  constructor
  · rintro ⟨hlen, hcells⟩
    have hdrop : (h.drop (h.length - n)).length = n := by rw [List.length_drop]; omega
    refine ⟨h.drop (h.length - n), hdrop, fun i hi => ?_, List.drop_suffix _ h⟩
    rw [hcells i (hdrop ▸ hi), List.getElem?_drop]
  · rintro ⟨raw, rfl, hraw, hsuf⟩
    refine ⟨hsuf.length_le, fun i hi => ?_⟩
    obtain ⟨front, rfl⟩ := hsuf
    rw [hraw i hi, List.length_append, Nat.add_sub_cancel,
      List.getElem?_append_right (Nat.le_add_right _ _), Nat.add_sub_cancel_left]

/-- The history invariant by the two lists that end the history: the window, and the captured bytes. -/
theorem historyInv_iff {h : List Byte} {s : State} : HistoryInv h s ↔
    h.length = s.pos ∧
      (s.st.isScan = true → s.wcnt.toNat ≤ h.length ∧ scanWindow s <:+ h) ∧
      (s.st = .decoding → ∃ raw, raw.length = s.cnt.toNat ∧ HoldsBytes s.fb raw ∧ raw <:+ h) := by
  refine and_congr_right fun _ => and_congr ?_ (imp_congr_right fun _ => frame_suffix_iff)
  exact imp_congr_right fun hscan => and_congr_right fun hlen => (scanWindow_suffix_iff hscan hlen).symm

/-- A match leaves the sync word in FB[0..3] (R83). -/
theorem holdsBytes_synced (s : State) (b : Byte) : HoldsBytes (s.synced b).fb Config.syncWord := by
  intro i hi
  have hi4 : i < 4 := hi
  rw [State.synced, fbCell_beginFrame]
  interval_cases i <;> rfl

/-- Every effect keeps the history, with the byte taken appended. -/
theorem Effect.historyInv {s t : State} {tk : Option Byte} {h : List Byte} (e : Effect s tk t)
    (hs : HistoryInv h s) : HistoryInv (h ++ tk.toList) t := by
  rw [historyInv_iff] at hs ⊢
  obtain ⟨hpos, hwindow, hframe⟩ := hs
  refine ⟨by rw [List.length_append, hpos, e.pos_eq], fun ht => ?scan, fun ht => ?frame⟩
  case scan =>
    obtain ⟨b, rfl, hscan, -, rfl⟩ | ⟨-, hwcnt, -⟩ := e.of_scan ht
    · obtain ⟨hlen, hsuf⟩ := hwindow hscan
      refine ⟨?_, ?_⟩
      · have hfill : (s.shifted b).wcnt.toNat = min 4 (s.wcnt.toNat + 1) := fillNext_toNat s.wcnt
        rw [hfill, List.length_append]
        exact (min_le_right _ _).trans (Nat.succ_le_succ hlen)
      · rw [scanWindow_shifted]
        exact (lastFour_suffix _).trans (List.suffix_append_self_iff.2 hsuf)
    · have hzero : t.wcnt.toNat = 0 := by rw [hwcnt]; rfl
      rw [scanWindow_of_wcnt_zero hzero, hzero]
      exact ⟨Nat.zero_le _, List.nil_suffix⟩
  case frame =>
    obtain ⟨b, rfl, hscan, hm, rfl⟩ | ⟨b, z, rfl, hc, rfl, -⟩ := e.of_decoding ht
    · refine ⟨Config.syncWord, rfl, holdsBytes_synced s b, ?_⟩
      exact ((matchAfter_iff_suffix s b).1 hm).trans (List.suffix_append_self_iff.2 (hwindow hscan).2)
    · obtain ⟨raw, hlen, hraw, hsuf⟩ := hframe hc.decoding
      refine ⟨raw ++ [b], ?_, holdsBytes_captured b z hlen hraw, List.suffix_append_self_iff.2 hsuf⟩
      rw [State.captured_cnt_toNat hc.in_buffer, List.length_append, hlen, List.length_singleton]

/-- After RESET nothing has been consumed. -/
theorem historyInv_reset (fb : List Host.Cell) (es : List Event) (xs : List Byte) (ps : List ResetPlan) :
    HistoryInv [] { State.reset with fb := fb, out := es, input := xs, plan := ps } :=
  historyInv_iff.2 ⟨rfl, fun _ => ⟨Nat.zero_le _, List.nil_suffix⟩, nofun⟩

/-- Settles O57: the byte an effect takes is appended to the history (`Effect.historyInv`), and RESET starts
one anew. -/
theorem historyKeptByEveryStep : Obligations.HistoryKeptByEveryStep := by
  intro s u h hs hstep
  refine ⟨fun hreset => ?_, fun hreset => ?_⟩
  · obtain ⟨tk, t, xs, e, rfl, hsplit, -⟩ := step_effect hreset hstep
    exact ⟨tk.toList, hsplit, e.historyInv hs⟩
  · obtain ⟨xs, ps, rfl⟩ := step_reset hreset hstep
    exact historyInv_reset s.fb s.out xs ps

/-- At some point of a session over `bs`: what has been consumed and what is left are `bs`, and the history
invariant holds of what has been consumed. -/
structure SessionInv (bs : List Byte) (s : State) : Prop where
  no_plan : s.plan = []
  block : BlockInv s
  history : ∃ h, bs = h ++ s.input ∧ HistoryInv h s

/-- Every step of a session answers and keeps `SessionInv`. -/
theorem SessionInv.step {bs : List Byte} {s : State} (hs : SessionInv bs s) :
    ∃ t, Machine.step s = .next t ∧ SessionInv bs t := by
  obtain ⟨u, hu⟩ := invNeverStops s hs.block
  refine ⟨u, hu, ?_⟩
  obtain ⟨h, hbs, hh⟩ := hs.history
  have hblock := invKeptByEveryStep s u hs.block hu
  obtain ⟨tk, t, xs, e, rfl, hsplit, -⟩ := step_effect (resetIn_of_plan_nil hs.no_plan) hu
  exact ⟨congrArg tickPlan hs.no_plan, hblock, h ++ tk.toList, by rw [hbs, hsplit, List.append_assoc],
    e.historyInv hh⟩

theorem sessionInv_session (bs : List Byte) : SessionInv bs (session bs) :=
  ⟨rfl, blockInv_reset wf_reset [] bs [], [], rfl, historyInv_reset [] [] bs []⟩

/-- Settles O45: `SessionInv` holds at every step, and what has been consumed starts the input. -/
theorem frameBufferHoldsInput : Obligations.FrameBufferHoldsInput := by
  intro bs k
  obtain ⟨t, hsteps, ht⟩ := steps_answer (P := SessionInv bs) (fun _ hs => hs.step) k _ (sessionInv_session bs)
  obtain ⟨h, hbs, hpos, -, hframe⟩ := ht.history
  refine ⟨t, hsteps, by rw [hbs, List.length_append]; omega, fun hst => ?_⟩
  obtain ⟨hcnt, hcells⟩ := hframe hst
  refine ⟨hpos ▸ hcnt, fun i hi => ?_⟩
  rw [hcells i hi, hbs, hpos, List.getElem?_append_left (by omega)]

end Sys2Proof.Machine
end

section
/-! Scans (spec/40_scanner.md): the four-state matcher against the window, and what a scan over a byte list
holds and finds. -/

namespace Sys2Proof.Machine

/-! ### The four-state matcher -/

/-- The sync word's first bytes that a list ends with (R85): at most three of them. -/
def EndsInSync (q : Nat) (l : List Byte) : Prop := Config.syncWord.take q <:+ l

theorem endsInSync_zero (l : List Byte) : EndsInSync 0 l := List.nil_suffix

/-- A list with a byte appended ends in q + 1 of the sync word's bytes when that byte is the last of them. -/
theorem endsInSync_succ_iff {q : Nat} (hq : q ≤ 3) (l : List Byte) (b : Byte) :
    EndsInSync (q + 1) (l ++ [b]) ↔ EndsInSync q l ∧ Config.syncWord[q]? = some b := by
  have hlt : q < Config.syncWord.length := Nat.lt_succ_of_le hq
  rw [EndsInSync, List.take_succ_eq_append_getElem hlt, snoc_suffix_snoc_iff, List.getElem?_eq_getElem hlt,
    Option.some.injEq]
  exact Iff.rfl

/-- Which of the sync word's first bytes the sync word's first p bytes end with: the overlaps of the word. -/
theorem endsInSync_take_iff : ∀ p < 4, ∀ q < 4, EndsInSync q (Config.syncWord.take p) ↔
    q = p ∨ q = 0 ∨ (q = 1 ∧ p = 2) := by
  unfold EndsInSync
  decide

/-- The matcher's state, the longest match, decides every shorter one (R85). -/
theorem endsInSync_iff_of_longest {p : Nat} {l : List Byte} (hp : p ≤ 3) (hl : EndsInSync p l)
    (hmax : ∀ q, q ≤ 3 → EndsInSync q l → q ≤ p) {q : Nat} (hq : q ≤ 3) :
    EndsInSync q l ↔ q = p ∨ q = 0 ∨ (q = 1 ∧ p = 2) := by
  rw [← endsInSync_take_iff p (Nat.lt_succ_of_le hp) q (Nat.lt_succ_of_le hq)]
  refine ⟨fun hql => ?_, fun hqp => hqp.trans hl⟩
  refine List.suffix_of_suffix_length_le hql hl ?_
  have hle := hmax q hq hql
  simp only [List.length_take, Config.syncWord_length]
  omega

/-- The matcher's next state is the longest match after the byte, and none exactly where the word is complete
(R85). -/
theorem matcherNext_spec {p : Nat} {l : List Byte} (hp : p ≤ 3) (hl : EndsInSync p l)
    (hmax : ∀ q, q ≤ 3 → EndsInSync q l → q ≤ p) (b : Byte) :
    (EndsInSync 4 (l ++ [b]) ↔ matcherNext p b = none) ∧
      ∀ q, matcherNext p b = some q → q ≤ 3 ∧ EndsInSync q (l ++ [b]) ∧
        ∀ r, r ≤ 3 → EndsInSync r (l ++ [b]) → r ≤ q := by
  have hiff {q : Nat} (hq : q ≤ 3) := endsInSync_iff_of_longest hp hl hmax hq
  have h1 : EndsInSync 1 (l ++ [b]) ↔ b = 0xFA := by
    rw [endsInSync_succ_iff (by decide), and_iff_right (endsInSync_zero l)]
    exact ⟨fun h => (Option.some.inj h).symm, fun h => congrArg some h.symm⟩
  have h2 : EndsInSync 2 (l ++ [b]) ↔ (1 = p ∨ p = 2) ∧ b = 0xFA := by
    rw [endsInSync_succ_iff (by decide), hiff (by decide)]
    simp [Config.syncWord_eq, eq_comm]
  have h3 : EndsInSync 3 (l ++ [b]) ↔ 2 = p ∧ b = 0xF0 := by
    rw [endsInSync_succ_iff (by decide), hiff (by decide)]
    simp [Config.syncWord_eq, eq_comm]
  have h4 : EndsInSync 4 (l ++ [b]) ↔ 3 = p ∧ b = 0xF0 := by
    rw [endsInSync_succ_iff (by decide), hiff (by decide)]
    simp [Config.syncWord_eq, eq_comm]
  have h0 := endsInSync_zero (l ++ [b])
  have hne : (0xF0 : Byte) ≠ 0xFA := by decide
  refine ⟨?_, fun q hq => ?_⟩
  · rw [h4]
    interval_cases p <;> grind [matcherNext]
  · suffices q ≤ 3 ∧ EndsInSync q (l ++ [b]) ∧ (EndsInSync 1 (l ++ [b]) → 1 ≤ q) ∧
        (EndsInSync 2 (l ++ [b]) → 2 ≤ q) ∧ (EndsInSync 3 (l ++ [b]) → 3 ≤ q) by
      obtain ⟨hq3, hend, hr1, hr2, hr3⟩ := this
      refine ⟨hq3, hend, fun r hr hr' => ?_⟩
      interval_cases r
      exacts [Nat.zero_le q, hr1 hr', hr2 hr', hr3 hr']
    interval_cases p <;> grind [matcherNext]

/-- What is asked of at most four bytes at the end can be asked of the last four. -/
theorem endsInSync_lastFour_iff (q : Nat) (l : List Byte) : EndsInSync q (lastFour l) ↔ EndsInSync q l :=
  suffix_lastFour_iff (List.length_take_le' _ _)

/-- In a scan, what the matcher does with a byte, the window does (R85). -/
theorem MatcherAgrees.step {p : Nat} {s : State} (h : MatcherAgrees p s) (b : Byte) :
    (matchAfter s.win s.wcnt b = true ↔ matcherNext p b = none) ∧
      ∀ q, matcherNext p b = some q → MatcherAgrees q (s.shifted b) := by
  obtain ⟨hp, hl, hmax⟩ := h
  obtain ⟨hmatch, hnext⟩ := matcherNext_spec hp hl hmax b
  refine ⟨(matchAfter_iff_suffix s b).trans hmatch, fun q hq => ?_⟩
  obtain ⟨hq3, hend, hlongest⟩ := hnext q hq
  rw [MatcherAgrees, scanWindow_shifted]
  exact ⟨hq3, (endsInSync_lastFour_iff q _).2 hend,
    fun r hr hr' => hlongest r hr ((endsInSync_lastFour_iff r _).1 hr')⟩

/-- Settles O58: `MatcherAgrees.step`, where SCAN.SHIFT's row is that the match test fails. -/
theorem matcherKeptByScanShift : Obligations.MatcherKeptByScanShift := by
  intro s p b _ h
  obtain ⟨hmatch, hnext⟩ := h.step b
  refine ⟨hmatch, fun t ht => ?_⟩
  obtain ⟨-, hm, rfl⟩ := execScanShift_next ht
  cases hq : matcherNext p b with
  | none =>
    rw [hmatch.2 hq] at hm
    cases hm
  | some q => exact ⟨q, rfl, hnext q hq⟩

/-! ### Steps of a session without resets -/

/-- A byte taken leaves the stream, and an empty schedule stays empty. -/
theorem advanceEnv_of_byte {t : State} {i : Instr} {b : Byte} {rest : List Byte}
    (hi : i.format = .byteSymbol) (hplan : t.plan = []) (hin : t.input = b :: rest) :
    t.advanceEnv i = { t with input := rest } := by
  have hne : i ≠ .reset := by
    rintro rfl
    cases hi
  have htick : tickPlan t.plan = t.plan := by rw [hplan]; rfl
  rw [advanceEnv_of_ne_reset t hne, if_pos hi, hin, htick, List.tail_cons]

/-- End-of-stream stays (R41), and an empty schedule stays empty. -/
theorem advanceEnv_of_eos {t : State} {i : Instr} (hi : i.format = .endSymbol) (hplan : t.plan = []) :
    t.advanceEnv i = t := by
  have hne : i ≠ .reset := by
    rintro rfl
    cases hi
  have htick : tickPlan t.plan = t.plan := by rw [hplan]; rfl
  rw [advanceEnv_of_ne_reset t hne, if_neg (by rw [hi]; nofun), htick]

section Scan

variable {s : State} (hscan : s.st.isScan = true) (hplan : s.plan = [])
include hscan hplan

theorem fetch_of_scan_byte {b : Byte} {rest : List Byte} (hin : s.input = b :: rest) :
    s.fetch = .ok (if matchAfter s.win s.wcnt b then .scanMatch b else .scanShift b) := by
  have hst := (isScan_iff s.st).1 hscan
  rw [fetch_of_not_resetIn (resetIn_of_plan_nil hplan), State.presented, hin]
  cases hm : matchAfter s.win s.wcnt b with
  | true => exact decodeSymbol_of_scan_match hst hm
  | false => exact decodeSymbol_of_scan_shift hst hm

/-- A step of a scan on a byte that does not complete the sync word. -/
theorem step_of_scan_shift {b : Byte} {rest : List Byte} (hin : s.input = b :: rest)
    (hm : matchAfter s.win s.wcnt b = false) : step s = .next { s.shifted b with input := rest } := by
  have hfetch := fetch_of_scan_byte hscan hplan hin
  rw [hm] at hfetch
  rw [step_of_fetch hfetch]
  refine (congrArg (thenEnv · _) (execScanShift_of_row hscan hm)).trans ?_
  exact congrArg Host.Outcome.next (advanceEnv_of_byte rfl (by exact hplan) (by exact hin))

/-- A step of a scan on the byte that completes the sync word. -/
theorem step_of_scan_match {b : Byte} {rest : List Byte} (hin : s.input = b :: rest)
    (hm : matchAfter s.win s.wcnt b = true) : step s = .next { s.synced b with input := rest } := by
  have hfetch := fetch_of_scan_byte hscan hplan hin
  rw [hm] at hfetch
  rw [step_of_fetch hfetch]
  refine (congrArg (thenEnv · _) (execScanMatch_of_row hscan hm)).trans ?_
  exact congrArg Host.Outcome.next (advanceEnv_of_byte rfl (by exact hplan) (by exact hin))

/-- A step of a scan at the end of the stream. -/
theorem step_of_scan_eos (hin : s.input = []) :
    step s = .next { s with out := s.out ++ [.exhausted], st := .done } := by
  have hfetch : s.fetch = .ok .scanEos := by
    rw [fetch_of_not_resetIn (resetIn_of_plan_nil hplan), State.presented, hin]
    exact decodeSymbol_of_scan_eos ((isScan_iff s.st).1 hscan)
  rw [step_of_fetch hfetch]
  refine (congrArg (thenEnv · _) (execScanEos_of_row hscan)).trans ?_
  exact congrArg Host.Outcome.next (advanceEnv_of_eos rfl (by exact hplan))

end Scan

/-- Steps compose. -/
theorem steps_add {m : Nat} {s t : State} (h : steps m s = .next t) (n : Nat) :
    steps (m + n) s = steps n t := by
  induction m generalizing s with
  | zero =>
    cases h
    rw [Nat.zero_add]
  | succ m ih =>
    rw [Nat.succ_add]
    simp only [steps] at h ⊢
    split at h
    · exact ih h
    · cases h
    · cases h

theorem steps_one {s t : State} (h : step s = .next t) : steps 1 s = .next t :=
  steps_succ_of_next 0 h

/-! ### The matcher over a scan -/

/-- A scan's start is described by the matcher's start. -/
theorem ScanStart.matcherAgrees {s : State} (h : ScanStart s) : MatcherAgrees 0 s := by
  obtain ⟨-, hwcnt, -⟩ := h
  refine ⟨Nat.zero_le 3, endsInSync_zero _, fun q hq hend => ?_⟩
  have hlen := hend.length_le
  rw [scanWindow_length, hwcnt, List.length_take, Config.syncWord_length] at hlen
  omega

/-- As long as the matcher does not match, the block scans, and the matcher's state describes its window. -/
theorem steps_matcherRun {bs rest : List Byte} {p q : Nat} {s : State} (hscan : s.st.isScan = true)
    (hplan : s.plan = []) (hin : s.input = bs ++ rest) (hp : MatcherAgrees p s)
    (hrun : matcherRun p bs = some q) :
    ∃ t, steps bs.length s = .next t ∧ t.st = s.st ∧ t.input = rest ∧ MatcherAgrees q t := by
  induction bs generalizing s p with
  | nil =>
    cases hrun
    exact ⟨s, rfl, rfl, hin, hp⟩
  | cons b bs ih =>
    obtain ⟨hmatch, hnext⟩ := hp.step b
    rw [matcherRun] at hrun
    split at hrun
    · cases hrun
    · rename_i p' hp'
      have hm : matchAfter s.win s.wcnt b = false := by
        rw [← Bool.not_eq_true, hmatch, hp']
        nofun
      rw [List.length_cons, steps_succ_of_next _ (step_of_scan_shift hscan hplan hin hm)]
      exact ih (s := { s.shifted b with input := bs ++ rest }) hscan hplan rfl (hnext p' hp') hrun

/-- Settles O44: `steps_matcherRun` from a scan's start, and `MatcherAgrees.step` for the next byte. -/
theorem matcherEquivalent : Obligations.MatcherEquivalent := by
  intro s bs rest p hstart hplan hin hrun
  obtain ⟨t, hsteps, hst, hin', hp⟩ := steps_matcherRun hstart.1 hplan hin hstart.matcherAgrees hrun
  exact ⟨t, hsteps, hst, hin', fun b => (hp.step b).1⟩

/-! ### What a scan holds and finds -/

/-- What a scan state holds after the bytes `bs` of its scan, none of which completed the sync word: the
counts, and the last four bytes (I-6). -/
structure Scanned (bs : List Byte) (s : State) : Prop where
  scan : s.st.isScan = true
  wcnt : s.wcnt.toNat = min 4 bs.length
  skip : s.skip.toNat = min (bs.length - 4) (2 ^ 64 - 1)
  window : scanWindow s = lastFour bs

theorem ScanStart.scanned {s : State} (h : ScanStart s) : Scanned [] s := by
  obtain ⟨hscan, hwcnt, hskip⟩ := h
  exact ⟨hscan, hwcnt, hskip, scanWindow_of_wcnt_zero hwcnt⟩

section Scanned

variable {bs : List Byte} {s : State} (h : Scanned bs s)
include h

/-- The match test asks whether the scan's bytes end in the sync word. -/
theorem Scanned.match_iff (b : Byte) :
    matchAfter s.win s.wcnt b = true ↔ Config.syncWord <:+ bs ++ [b] := by
  rw [matchAfter_iff_suffix, h.window, syncWord_suffix_snoc_iff, syncWord_suffix_snoc_iff,
    suffix_lastFour_iff (by decide)]

/-- The discard count after one more byte: all but the last four (R24). -/
theorem Scanned.skipCounted_toNat : s.skipCounted.toNat = min (bs.length + 1 - 4) (2 ^ 64 - 1) := by
  rw [Machine.skipCounted_toNat, h.wcnt, h.skip]
  split_ifs <;> omega

/-- One more byte of the scan. -/
theorem Scanned.shifted (b : Byte) : Scanned (bs ++ [b]) (s.shifted b) := by
  refine ⟨h.scan, (fillNext_toNat s.wcnt).trans ?_, ?_, ?_⟩
  · rw [h.wcnt, List.length_append, List.length_singleton]
    omega
  · rw [List.length_append]
    exact h.skipCounted_toNat
  · rw [scanWindow_shifted, h.window, lastFour_snoc]

/-- What is scanned does not depend on what is left of the stream. -/
theorem Scanned.withInput (xs : List Byte) : Scanned bs { s with input := xs } :=
  ⟨h.scan, h.wcnt, h.skip, h.window⟩

end Scanned

/-- A scan over bytes that hold no sync word takes them all and changes nothing but its own registers. -/
theorem steps_scan {front bs rest : List Byte} {s : State} (h : Scanned front s) (hplan : s.plan = [])
    (hin : s.input = bs ++ rest) (hno : ¬ Config.syncWord <:+: front ++ bs) :
    ∃ t, steps bs.length s = .next t ∧ Scanned (front ++ bs) t ∧
      t = { s with
        win := t.win, wcnt := t.wcnt, skip := t.skip, pos := s.pos + bs.length, input := rest } := by
  induction bs generalizing front s with
  | nil =>
    refine ⟨s, rfl, by rwa [List.append_nil], ?_⟩
    have hrest : rest = s.input := hin.symm
    subst hrest
    rfl
  | cons b bs ih =>
    have hassoc : front ++ b :: bs = front ++ [b] ++ bs := by rw [List.append_assoc]; rfl
    rw [hassoc] at hno ⊢
    have hm : matchAfter s.win s.wcnt b = false := by
      rw [← Bool.not_eq_true, h.match_iff]
      exact fun hsuf => hno (List.infix_append_of_infix_left hsuf.isInfix)
    have hstep := step_of_scan_shift h.scan hplan hin hm
    obtain ⟨t, hsteps, ht, heq⟩ := ih (s := { s.shifted b with input := bs ++ rest })
      ((h.shifted b).withInput _) hplan rfl hno
    refine ⟨t, (steps_succ_of_next _ hstep).trans hsteps, ht, heq.trans ?_⟩
    rw [List.length_cons, Nat.add_comm bs.length, ← Nat.add_assoc]
    rfl

/-- Settles O42: `steps_scan` from a scan's start; the window's readable registers are the last bytes by
`scanWindow_suffix_iff`. -/
theorem scanCounters : Obligations.ScanCounters := by
  intro s bs rest hstart hplan hin hno
  obtain ⟨t, hsteps, ht, heq⟩ := steps_scan hstart.scanned hplan hin hno
  rw [List.nil_append] at ht
  have hlen : t.wcnt.toNat ≤ bs.length := by rw [ht.wcnt]; exact min_le_right _ _
  have hreads := (scanWindow_suffix_iff ht.scan hlen).1 (ht.window ▸ lastFour_suffix bs)
  refine ⟨t, hsteps, heq, ht.wcnt, ht.skip, fun k hk => ?_⟩
  obtain ⟨b, hread, hb⟩ := hreads k (by rw [ht.wcnt]; exact lt_min k.isLt hk)
  exact ⟨b, hb, hread⟩

/-- A count as the SYNC event carries it, read as a number. -/
theorem skipOf_toNat (k : Nat) : (skipOf k).toNat = min k (2 ^ 64 - 1) := by
  rw [skipOf, BitVec.toNat_ofNat, Nat.mod_eq_of_lt (by omega)]

/-- A scan with a sync word ahead stops just past the leftmost one, with the discarded bytes counted (R80). -/
theorem steps_to_sync {z rest : List Byte} {s : State} (hstart : ScanStart s) (hplan : s.plan = [])
    (hin : s.input = z ++ Config.syncWord ++ rest)
    (hno : ¬ Config.syncWord <:+: z ++ Config.syncWord.take 3) :
    ∃ t, steps (z.length + 4) s = .next t ∧ t.st = .decoding ∧ t.cnt = 4 ∧ t.input = rest ∧ t.plan = [] ∧
      t.pos = s.pos + z.length + 4 ∧ t.out = s.out ++ [.sync (skipOf z.length)] ∧
      HoldsBytes t.fb Config.syncWord := by
  have hsplit : s.input = (z ++ Config.syncWord.take 3) ++ 0xF0 :: rest := by
    rw [hin, List.append_assoc, List.append_assoc]
    rfl
  have hlen : (z ++ Config.syncWord.take 3).length = z.length + 3 := List.length_append
  obtain ⟨u, hsteps, hu, heq⟩ := steps_scan hstart.scanned hplan hsplit hno
  rw [List.nil_append] at hu
  have hm : matchAfter u.win u.wcnt 0xF0 = true := by
    rw [hu.match_iff, syncWord_suffix_snoc_iff]
    exact ⟨List.suffix_append _ _, rfl⟩
  have hu_plan : u.plan = [] := by rw [heq]; exact hplan
  have hstep := step_of_scan_match hu.scan hu_plan (by rw [heq]) hm
  have hskip : u.skipCounted = skipOf z.length := by
    refine BitVec.eq_of_toNat_eq ?_
    rw [hu.skipCounted_toNat, skipOf_toNat, hlen]
    rfl
  rw [hlen] at hsteps heq
  refine ⟨_, (steps_add hsteps 1).trans (steps_one hstep), rfl, rfl, rfl, hu_plan, ?_, ?_,
    holdsBytes_synced u 0xF0⟩
  · change u.pos + 1 = _
    rw [heq]
    rfl
  · change u.out ++ [.sync u.skipCounted] = _
    rw [hskip, heq]

/-- A scan with no sync word ahead ends in Done, with EXHAUSTED alone (R84, R86). -/
theorem steps_to_exhausted {s : State} (hstart : ScanStart s) (hplan : s.plan = [])
    (hno : ¬ Config.syncWord <:+: s.input) :
    ∃ t, steps (s.input.length + 1) s = .next t ∧ t.st = .done ∧ t.input = [] ∧ t.plan = [] ∧
      t.pos = s.pos + s.input.length ∧ t.out = s.out ++ [.exhausted] := by
  obtain ⟨u, hsteps, hu, heq⟩ := steps_scan hstart.scanned hplan (List.append_nil s.input).symm hno
  have hu_plan : u.plan = [] := by rw [heq]; exact hplan
  have hstep := step_of_scan_eos hu.scan hu_plan (by rw [heq])
  refine ⟨_, (steps_add hsteps 1).trans (steps_one hstep), rfl, ?_, hu_plan, ?_, ?_⟩ <;> rw [heq]

/-- Settles O43: `steps_to_sync` and `steps_to_exhausted`. -/
theorem scanFindsLeftmostSync : Obligations.ScanFindsLeftmostSync := by
  refine ⟨fun s z rest hstart hplan hin hno => ?_, fun s hstart hplan hno => ?_⟩
  · obtain ⟨t, hsteps, hst, hcnt, hrest, -, hpos, hout, -⟩ := steps_to_sync hstart hplan hin hno
    exact ⟨t, hsteps, hst, hcnt, hrest, hpos, hout⟩
  · obtain ⟨t, hsteps, hst, hrest, -, hpos, hout⟩ := steps_to_exhausted hstart hplan hno
    exact ⟨t, hsteps, hst, hrest, hpos, hout⟩

end Sys2Proof.Machine
end

section
/-! The source's procedures (spec/40_scanner.md R80, 41_frame_decoder.md R90, 42_control_fsm.md R105) as facts
about byte lists: where the leftmost sync word is, the four ways a decode attempt ends, and the loop. -/

namespace Sys2Proof.Machine

/-! ### The leftmost sync word -/

/-- The first four bytes are the sync word exactly when the list begins with it. -/
theorem take_four_eq_iff {bs : List Byte} : bs.take 4 = Config.syncWord ↔ Config.syncWord <+: bs := by
  rw [List.prefix_iff_eq_take, Config.syncWord_length, eq_comm]

theorem findSync_cons_of_sync {b : Byte} {bs : List Byte} (h : Config.syncWord <+: b :: bs) :
    findSync (b :: bs) = some (0, (b :: bs).drop 4) := by
  rw [findSync, if_pos (take_four_eq_iff.2 h)]

theorem findSync_cons_of_not_sync {b : Byte} {bs : List Byte} (h : ¬ Config.syncWord <+: b :: bs) :
    findSync (b :: bs) = (findSync bs).map fun r => (r.1 + 1, r.2) := by
  rw [findSync, if_neg (mt take_four_eq_iff.1 h)]
  cases findSync bs <;> rfl

/-- The search finds nothing exactly where there is no sync word (R86). -/
theorem findSync_eq_none_iff {bs : List Byte} : findSync bs = none ↔ ¬ Config.syncWord <:+: bs := by
  induction bs with
  | nil => exact iff_of_true rfl (by decide)
  | cons b bs ih =>
    rw [List.infix_cons_iff, not_or, ← ih]
    by_cases h : Config.syncWord <+: b :: bs
    · rw [findSync_cons_of_sync h]
      exact iff_of_false nofun fun hn => hn.1 h
    · rw [findSync_cons_of_not_sync h, Option.map_eq_none_iff, and_iff_right h]

/-- What the search finds is the leftmost sync word: no earlier one ends before it does (R80). -/
theorem findSync_eq_some {bs rest : List Byte} {k : Nat} (h : findSync bs = some (k, rest)) :
    ∃ z, bs = z ++ Config.syncWord ++ rest ∧ z.length = k ∧
      ¬ Config.syncWord <:+: z ++ Config.syncWord.take 3 := by
  induction bs generalizing k with
  | nil => cases h
  | cons b bs ih =>
    by_cases hsync : Config.syncWord <+: b :: bs
    · rw [findSync_cons_of_sync hsync] at h
      cases h
      refine ⟨[], ?_, rfl, by decide⟩
      rw [List.nil_append, ← take_four_eq_iff.2 hsync, List.take_append_drop]
    · rw [findSync_cons_of_not_sync hsync, Option.map_eq_some_iff] at h
      obtain ⟨⟨k', rest'⟩, hfind, heq⟩ := h
      obtain ⟨rfl, rfl⟩ : k' + 1 = k ∧ rest' = rest := by simpa using heq
      obtain ⟨z, rfl, rfl, hno⟩ := ih hfind
      refine ⟨b :: z, rfl, rfl, ?_⟩
      rw [List.cons_append, List.infix_cons_iff, not_or]
      refine ⟨fun hpre => hsync (hpre.trans ?_), hno⟩
      rw [syncWord_eq_snoc]
      exact ⟨[0xF0] ++ rest', by simp⟩

/-- A sync word that no earlier one precedes is what the search finds. -/
theorem findSync_of_leftmost {z : List Byte} (rest : List Byte)
    (hno : ¬ Config.syncWord <:+: z ++ Config.syncWord.take 3) :
    findSync (z ++ Config.syncWord ++ rest) = some (z.length, rest) := by
  induction z with
  | nil => exact findSync_cons_of_sync ⟨rest, rfl⟩
  | cons b z ih =>
    rw [List.cons_append, List.infix_cons_iff, not_or] at hno
    obtain ⟨hhead, htail⟩ := hno
    have hsync : ¬ Config.syncWord <+: b :: (z ++ Config.syncWord ++ rest) := fun hpre => by
      refine hhead (List.prefix_of_prefix_length_le hpre ⟨[0xF0] ++ rest, ?_⟩ ?_)
      · rw [syncWord_eq_snoc]
        simp
      · simp [Config.syncWord_eq]
    rw [List.cons_append, List.cons_append, findSync_cons_of_not_sync hsync, ih htail]
    rfl

/-! ### A decode attempt -/

/-- The event a decode attempt ends with. -/
def Decoded.event : Decoded → Event
  | .ok raw t _ => .msg raw t
  | .malformed _ => .err .malformed
  | .truncated => .err .truncated

/-- The stream a decode attempt leaves. -/
def Decoded.rest : Decoded → List Byte
  | .ok _ _ rest => rest
  | .malformed rest => rest
  | .truncated => []

/-- The ways a decode attempt on a stream can end: the stream ends before the length field is in, the length is
below 17, the stream ends before the payload is in, or the frame is whole. -/
inductive Attempt : List Byte → Decoded → Prop
  | headless (bs : List Byte) (hlen : bs.length < 13) : Attempt bs .truncated
  | malformed (h pay : List Byte) (hi lo : Byte) (hh : h.length = 11)
      (hlt : (assembleTotalSize hi lo).toNat < 17) : Attempt (h ++ hi :: lo :: pay) (.malformed pay)
  | short (h pay : List Byte) (hi lo : Byte) (hh : h.length = 11)
      (hlt : 17 + pay.length < (assembleTotalSize hi lo).toNat) : Attempt (h ++ hi :: lo :: pay) .truncated
  | whole (h pay rest : List Byte) (hi lo : Byte) (hh : h.length = 11)
      (heq : (assembleTotalSize hi lo).toNat = 17 + pay.length) :
      Attempt (h ++ hi :: lo :: (pay ++ rest))
        (.ok (Config.syncWord ++ h ++ [hi, lo] ++ pay) (assembleTotalSize hi lo) rest)

/-- `decode`'s block reads, once the header and the length field are there. -/
theorem decodeProc_of_header {h pay : List Byte} {hi lo : Byte} (hh : h.length = 11) :
    decodeProc (h ++ hi :: lo :: pay) =
      if (assembleTotalSize hi lo).toNat < 17 then .malformed pay
      else if 17 + pay.length < (assembleTotalSize hi lo).toNat then .truncated
      else .ok (Config.syncWord ++ h ++ [hi, lo] ++ pay.take ((assembleTotalSize hi lo).toNat - 17))
        (assembleTotalSize hi lo) (pay.drop ((assembleTotalSize hi lo).toNat - 17)) := by
  have hdrop : (h ++ hi :: lo :: pay).drop Config.sundry.headerLen = hi :: lo :: pay :=
    List.drop_left' hh
  have htake : (h ++ hi :: lo :: pay).take 11 = h := List.take_left' hh
  unfold decodeProc
  rw [hdrop]
  dsimp only
  split_ifs with hlt hshort
  · rw [remainingOf_of_lt hlt]
  · rw [remainingOf_of_le (not_lt.1 hlt)]
    exact if_pos (by omega)
  · rw [remainingOf_of_le (not_lt.1 hlt), htake]
    exact if_neg (by omega)

/-- `decode`'s block reads, where the stream ends before the length field is in. -/
theorem decodeProc_of_headless {bs : List Byte} (hlen : bs.length < 13) : decodeProc bs = .truncated := by
  unfold decodeProc
  split
  · rename_i hi lo pay hdrop
    have := congrArg List.length hdrop
    rw [List.length_drop, List.length_cons, List.length_cons, Config.sundry_headerLen] at this
    omega
  · rfl

/-- A list of at least 13 bytes is a header, two bytes, and the rest. -/
theorem exists_header {bs : List Byte} (hlen : 13 ≤ bs.length) :
    ∃ h hi lo pay, bs = h ++ hi :: lo :: pay ∧ h.length = 11 := by
  obtain ⟨hi, tail, htail⟩ : ∃ hi tail, bs.drop 11 = hi :: tail :=
    List.exists_cons_of_length_pos (by rw [List.length_drop]; omega)
  have htlen : tail.length = bs.length - 12 := by
    have := congrArg List.length htail
    rw [List.length_drop, List.length_cons] at this
    omega
  obtain ⟨lo, pay, hpay⟩ : ∃ lo pay, tail = lo :: pay := List.exists_cons_of_length_pos (by omega)
  refine ⟨bs.take 11, hi, lo, pay, ?_, by rw [List.length_take]; omega⟩
  rw [← hpay, ← htail, List.take_append_drop]

/-- `decode` ends in one of these ways on every stream (R90, R99). -/
theorem attempt_decodeProc (bs : List Byte) : Attempt bs (decodeProc bs) := by
  obtain hlen | hlen := Nat.lt_or_ge bs.length 13
  · rw [decodeProc_of_headless hlen]
    exact .headless bs hlen
  · obtain ⟨h, hi, lo, pay, rfl, hh⟩ := exists_header hlen
    rw [decodeProc_of_header hh]
    split_ifs with hlt hshort
    · exact .malformed h pay hi lo hh hlt
    · exact .short h pay hi lo hh hshort
    · have hpay := (List.take_append_drop ((assembleTotalSize hi lo).toNat - 17) pay).symm
      generalize hp : pay.take ((assembleTotalSize hi lo).toNat - 17) = p at hpay ⊢
      generalize pay.drop ((assembleTotalSize hi lo).toNat - 17) = rest at hpay ⊢
      subst hpay
      refine .whole h p rest hi lo hh ?_
      have := congrArg List.length hp
      rw [List.length_take] at this
      omega

/-- The way an attempt ends is the way `decode` ends. -/
theorem Attempt.decodeProc_eq {bs : List Byte} {d : Decoded} (h : Attempt bs d) : decodeProc bs = d := by
  cases h with
  | headless bs hlen => exact decodeProc_of_headless hlen
  | malformed h pay hi lo hh hlt => rw [decodeProc_of_header hh, if_pos hlt]
  | short h pay hi lo hh hlt => rw [decodeProc_of_header hh, if_neg (by omega), if_pos hlt]
  | whole h pay rest hi lo hh heq =>
    have hn : (assembleTotalSize hi lo).toNat - 17 = pay.length := by omega
    rw [decodeProc_of_header hh, if_neg (by omega), if_neg (by rw [List.length_append]; omega), hn,
      List.take_left, List.drop_left]

/-! ### The loop -/

/-- An attempt leaves no more than it was given. -/
theorem decodeProc_rest_length_le (bs : List Byte) : (decodeProc bs).rest.length ≤ bs.length := by
  have ha := attempt_decodeProc bs
  generalize decodeProc bs = d at ha ⊢
  cases ha <;> simp only [Decoded.rest, List.length_nil, List.length_append, List.length_cons] <;> omega

theorem loopProc_succ_of_none {fuel : Nat} {bs : List Byte} (h : findSync bs = none) :
    loopProc (fuel + 1) bs = [.exhausted] := by
  simp only [loopProc, h]

/-- One attempt of the loop, and the loop on what it leaves (R105). -/
theorem loopProc_succ_of_some {fuel k : Nat} {bs rest : List Byte} (h : findSync bs = some (k, rest))
    (hfuel : 0 < fuel) :
    loopProc (fuel + 1) bs =
      .sync (skipOf k) :: (decodeProc rest).event :: loopProc fuel (decodeProc rest).rest := by
  obtain ⟨fuel, rfl⟩ := Nat.exists_eq_add_of_lt hfuel
  simp only [loopProc, h]
  cases decodeProc rest <;> rfl

/-- A sync word takes four bytes. -/
theorem findSync_rest_length {bs rest : List Byte} {k : Nat} (h : findSync bs = some (k, rest)) :
    rest.length + 4 ≤ bs.length := by
  obtain ⟨z, rfl, -, -⟩ := findSync_eq_some h
  simp only [List.length_append, Config.syncWord_length]
  omega

/-- An attempt, sync word and all, takes at least four bytes. -/
theorem decodeProc_rest_length_lt {bs rest : List Byte} {k : Nat} (h : findSync bs = some (k, rest)) :
    (decodeProc rest).rest.length + 4 ≤ bs.length :=
  (Nat.add_le_add_right (decodeProc_rest_length_le rest) 4).trans (findSync_rest_length h)

/-- Induction along the loop: streams with no sync word, and streams by what their first attempt leaves. -/
theorem loop_induction {P : List Byte → Prop} (hnone : ∀ bs, findSync bs = none → P bs)
    (hsome : ∀ bs k rest, findSync bs = some (k, rest) → P (decodeProc rest).rest → P bs)
    (bs : List Byte) : P bs := by
  induction hn : bs.length using Nat.strong_induction_on generalizing bs with
  | _ n ih =>
    cases hfind : findSync bs with
    | none => exact hnone bs hfind
    | some r =>
      have hlt := decodeProc_rest_length_lt hfind
      exact hsome bs r.1 r.2 hfind (ih _ (by omega) _ rfl)

/-- Any fuel above the stream's length is enough. -/
theorem loopProc_eq_sourceRun {fuel : Nat} {bs : List Byte} (h : bs.length < fuel) :
    loopProc fuel bs = sourceRun bs := by
  induction bs using loop_induction generalizing fuel with
  | hnone bs hfind =>
    obtain ⟨fuel, rfl⟩ := Nat.exists_eq_add_of_lt h
    rw [sourceRun, loopProc_succ_of_none hfind, loopProc_succ_of_none hfind]
  | hsome bs k rest hfind ih =>
    have hlt := decodeProc_rest_length_lt hfind
    obtain ⟨fuel, rfl⟩ := Nat.exists_eq_add_of_lt h
    rw [sourceRun, loopProc_succ_of_some hfind (by omega), loopProc_succ_of_some hfind (by omega),
      ih (by omega), ih (by omega)]

/-- The source's events on a stream with no sync word. -/
theorem sourceRun_of_none {bs : List Byte} (h : findSync bs = none) : sourceRun bs = [.exhausted] :=
  loopProc_succ_of_none h

/-- The source's events, the first attempt at the front. -/
theorem sourceRun_of_some {bs rest : List Byte} {k : Nat} (h : findSync bs = some (k, rest)) :
    sourceRun bs = .sync (skipOf k) :: (decodeProc rest).event :: sourceRun (decodeProc rest).rest := by
  have hlt := decodeProc_rest_length_lt h
  rw [sourceRun, loopProc_succ_of_some h (by omega), loopProc_eq_sourceRun (by omega)]

end Sys2Proof.Machine
end

section
/-! Decode attempts byte by byte (spec/41_frame_decoder.md): the block captures what `decode` reads as blocks,
and ends each attempt as it does. -/

namespace Sys2Proof.Machine

/-! ### Reaching a state -/

/-- Some number of steps leads from one state to the other. -/
def Reaches (s t : State) : Prop := ∃ n, steps n s = .next t

theorem Reaches.refl (s : State) : Reaches s s := ⟨0, rfl⟩

theorem Reaches.of_step {s t : State} (h : step s = .next t) : Reaches s t := ⟨1, steps_one h⟩

theorem Reaches.trans {s t u : State} (hst : Reaches s t) (htu : Reaches t u) : Reaches s u := by
  obtain ⟨m, hm⟩ := hst
  obtain ⟨n, hn⟩ := htu
  exact ⟨m + n, (steps_add hm n).trans hn⟩

/-! ### One step outside Done, without resets -/

/-- With no reset scheduled, a step on a byte has an effect that takes it. -/
theorem FrameInv.step_byte {s : State} {b : Byte} {rest : List Byte} (h : FrameInv s) (hplan : s.plan = [])
    (hst : s.st ≠ .done) (hin : s.input = b :: rest) :
    ∃ t, Effect s (some b) t ∧ step s = .next { t with input := rest } := by
  obtain ⟨u, hu⟩ := h.step_answers
  obtain ⟨tk, t, xs, e, rfl, hsplit, hend⟩ := step_effect (resetIn_of_plan_nil hplan) hu
  have htick : tickPlan s.plan = t.plan := by rw [e.env_eq.2, hplan]; rfl
  rw [hin] at hsplit hend
  cases tk with
  | none => cases hend rfl hst
  | some b' =>
    obtain ⟨rfl, rfl⟩ := List.cons.inj hsplit
    exact ⟨t, e, hu.trans (by rw [htick])⟩

/-- With no reset scheduled, a step at the end of the stream has an effect that takes nothing. -/
theorem FrameInv.step_eos {s : State} (h : FrameInv s) (hplan : s.plan = []) (hin : s.input = []) :
    ∃ t, Effect s none t ∧ step s = .next t := by
  obtain ⟨u, hu⟩ := h.step_answers
  obtain ⟨tk, t, xs, e, rfl, hsplit, -⟩ := step_effect (resetIn_of_plan_nil hplan) hu
  have htick : tickPlan s.plan = t.plan := by rw [e.env_eq.2, hplan]; rfl
  rw [hin] at hsplit
  cases tk with
  | some b => cases hsplit
  | none =>
    have hxs : xs = t.input := by rw [e.env_eq.1, hin]; exact hsplit.symm
    exact ⟨t, e, hu.trans (by rw [htick, hxs])⟩

/-! ### The captured part of a frame -/

/-- A decode attempt that has captured `raw`: its bytes are counted by CNT and held by FB, and the attempt is
inside the frame (I-2). -/
structure Capturing (raw : List Byte) (s : State) : Prop where
  decoding : s.st = .decoding
  four_le : 4 ≤ raw.length
  cnt : s.cnt.toNat = raw.length
  cells : HoldsBytes s.fb raw
  in_frame : raw.length ≤ 16 ∨ 17 ≤ raw.length ∧ raw.length < s.tsize.toNat

section Capturing

variable {raw : List Byte} {s : State} (h : Capturing raw s)
include h

theorem Capturing.frameInv : FrameInv s := by
  refine ⟨fun hst => absurd h.decoding hst, fun _ => ?_, fun _ i hi => ?_⟩
  · have h4 := h.four_le
    have hin := h.in_frame
    rw [h.cnt]
    exact ⟨h4, by omega⟩
  · rw [h.cnt] at hi
    rw [h.cells i hi, List.getElem?_eq_getElem hi]
    rfl

theorem Capturing.withInput (xs : List Byte) : Capturing raw { s with input := xs } :=
  ⟨h.decoding, h.four_le, h.cnt, h.cells, h.in_frame⟩

/-- What is captured is what a completed Message reads. -/
theorem Capturing.memRead : s.memRead 0 s.cnt.toNat = .ok raw :=
  memRead_of_holdsBytes h.decoding h.cnt.symm h.cells

/-- A byte goes one of three ways: it is captured, it completes the Message, or its size is malformed. -/
theorem Capturing.step_byte {b : Byte} {rest : List Byte} (hplan : s.plan = []) (hin : s.input = b :: rest) :
    ∃ z, Captures s b z ∧
      ((step s = .next { s.captured b z with input := rest } ∧
          (raw.length < 16 ∨ raw.length = 16 ∧ 17 < z.toNat ∨
            16 < raw.length ∧ raw.length + 1 ≠ z.toNat)) ∨
        (step s = .next { (s.stored b z).deliver (raw ++ [b]) z with input := rest } ∧
          16 ≤ raw.length ∧ raw.length + 1 = z.toNat) ∨
        step s = .next { (s.stored b z).raise .malformed with input := rest } ∧
          raw.length = 16 ∧ z.toNat < 17) := by
  have hst := h.decoding
  obtain ⟨t, e, hstep⟩ := h.frameInv.step_byte hplan (by rw [hst]; decide) hin
  rw [← h.cnt]
  cases e with
  | shift _ hscan => exact absurd hst (st_ne_of_isScan hscan).1
  | sync _ hscan => exact absurd hst (st_ne_of_isScan hscan).1
  | capture _ z hc hmore => exact ⟨z, hc, .inl ⟨hstep, hmore⟩⟩
  | deliver _ z front hc h16 hlast hread =>
    obtain rfl : raw = front := Except.ok.inj (h.memRead.symm.trans hread)
    exact ⟨z, hc, .inr (.inl ⟨hstep, h16, hlast⟩)⟩
  | malformed _ z hc hcnt hlt => exact ⟨z, hc, .inr (.inr ⟨hstep, hcnt, hlt⟩)⟩

/-- The captured byte is appended. -/
theorem Capturing.captured {b : Byte} {z : Word} (hc : Captures s b z)
    (hin : raw.length < 16 ∨ 16 ≤ raw.length ∧ raw.length + 1 < z.toNat) :
    Capturing (raw ++ [b]) (s.captured b z) := by
  have h4 := h.four_le
  have hlen : (raw ++ [b]).length = raw.length + 1 := List.length_append
  refine ⟨h.decoding, by omega, ?_, holdsBytes_captured b z h.cnt.symm h.cells, ?_⟩
  · rw [State.captured_cnt_toNat hc.in_buffer, h.cnt, hlen]
  · change _ ∨ _ ∧ _ < z.toNat
    omega

/-- Away from the length field's last byte and the frame's last byte, a byte is captured and TSIZE is kept. -/
theorem Capturing.step_capture {b : Byte} {rest : List Byte} (hplan : s.plan = [])
    (hin : s.input = b :: rest)
    (hroom : raw.length < 16 ∨ 17 ≤ raw.length ∧ raw.length + 1 < s.tsize.toNat) :
    ∃ t, step s = .next t ∧ Capturing (raw ++ [b]) t ∧ t.plan = [] ∧ t.input = rest ∧
      t.out = s.out ∧ t.tsize = s.tsize := by
  obtain ⟨z, hc, hcases⟩ := h.step_byte hplan hin
  obtain rfl : z = s.tsize := (sizeWith_of_cnt_ne (by rw [h.cnt]; omega)).1 hc.size
  obtain ⟨hstep, -⟩ | ⟨-, h16, hlast⟩ | ⟨-, h16, -⟩ := hcases
  · exact ⟨_, hstep, (h.captured hc (by omega)).withInput rest, hplan, rfl, rfl, rfl⟩
  · omega
  · omega

end Capturing

/-- A stretch of bytes that ends neither the length field nor the frame is captured whole. -/
theorem Capturing.reaches_captured {raw c rest : List Byte} {s : State} (h : Capturing raw s)
    (hplan : s.plan = []) (hin : s.input = c ++ rest)
    (hroom : raw.length + c.length ≤ 16 ∨ 17 ≤ raw.length ∧ raw.length + c.length < s.tsize.toNat) :
    ∃ t, Reaches s t ∧ Capturing (raw ++ c) t ∧ t.plan = [] ∧ t.input = rest ∧ t.out = s.out ∧
      t.tsize = s.tsize := by
  induction c generalizing raw s with
  | nil => exact ⟨s, .refl s, by rwa [List.append_nil], hplan, hin, rfl, rfl⟩
  | cons b c ih =>
    rw [List.length_cons] at hroom
    obtain ⟨t, hstep, ht, htplan, htin, htout, httsize⟩ := h.step_capture hplan hin (by omega)
    have hlen : (raw ++ [b]).length = raw.length + 1 := List.length_append
    obtain ⟨u, hu, hcap, huplan, huin, huout, hutsize⟩ := ih ht htplan htin (by rw [hlen, httsize]; omega)
    refine ⟨u, (Reaches.of_step hstep).trans hu, ?_, huplan, huin, huout.trans htout, hutsize.trans httsize⟩
    rwa [List.append_assoc] at hcap

/-! ### How an attempt ends -/

/-- After an attempt: a scan is about to start on what the attempt left, and one event is out. -/
structure AttemptDone (s : State) (e : Event) (rest : List Byte) (t : State) : Prop where
  scan_start : ScanStart t
  no_plan : t.plan = []
  input : t.input = rest
  out : t.out = s.out ++ [e]

/-- The stream ends inside the frame (R95). -/
theorem Capturing.reaches_truncated {raw : List Byte} {s : State} (h : Capturing raw s) (hplan : s.plan = [])
    (hin : s.input = []) : ∃ t, Reaches s t ∧ AttemptDone s (.err .truncated) [] t := by
  obtain ⟨t, e, hstep⟩ := h.frameInv.step_eos hplan hin
  refine ⟨t, .of_step hstep, ?_⟩
  cases e with
  | exhaust hscan => exact absurd h.decoding (st_ne_of_isScan hscan).1
  | truncate => exact ⟨⟨rfl, rfl, rfl⟩, hplan, hin, rfl⟩
  | hold hst =>
    rw [h.decoding] at hst
    cases hst

/-- The length field's last byte decides by the size (R93): below 17 the attempt fails, at 17 the Message is
whole, above it the payload follows. -/
theorem Capturing.reaches_length {front rest : List Byte} {hi lo : Byte} {s : State}
    (h : Capturing (front ++ [hi]) s) (hlen : front.length = 15) (hplan : s.plan = [])
    (hin : s.input = lo :: rest) :
    ∃ t, Reaches s t ∧
      (((assembleTotalSize hi lo).toNat < 17 ∧ AttemptDone s (.err .malformed) rest t) ∨
        ((assembleTotalSize hi lo).toNat = 17 ∧
          AttemptDone s (.msg (front ++ [hi] ++ [lo]) (assembleTotalSize hi lo)) rest t) ∨
        17 < (assembleTotalSize hi lo).toNat ∧ Capturing (front ++ [hi] ++ [lo]) t ∧ t.plan = [] ∧
          t.input = rest ∧ t.out = s.out ∧ t.tsize = assembleTotalSize hi lo) := by
  have hraw : (front ++ [hi]).length = 16 := by rw [List.length_append, hlen]; rfl
  have hcell : fbCell s.fb 15 = some hi := by
    rw [h.cells 15 (by omega), ← hlen, List.getElem?_concat_length]
  obtain ⟨z, hc, hcases⟩ := h.step_byte hplan hin
  obtain ⟨hi', hhi', rfl⟩ := (sizeWith_of_cnt_eq (h.cnt.trans hraw)).1 hc.size
  obtain rfl : hi = hi' := Option.some.inj (hcell.symm.trans hhi')
  obtain ⟨hstep, hmore⟩ | ⟨hstep, -, hlast⟩ | ⟨hstep, -, hlt⟩ := hcases
  · refine ⟨_, .of_step hstep, .inr (.inr ⟨by omega, ?_, hplan, rfl, rfl, rfl⟩)⟩
    exact (h.captured hc (by omega)).withInput rest
  · exact ⟨_, .of_step hstep, .inr (.inl ⟨by omega, ⟨rfl, rfl, rfl⟩, hplan, rfl, rfl⟩)⟩
  · exact ⟨_, .of_step hstep, .inl ⟨hlt, ⟨rfl, rfl, rfl⟩, hplan, rfl, rfl⟩⟩

/-- The payload's last byte completes the Message (R94). -/
theorem Capturing.reaches_message {raw rest : List Byte} {b : Byte} {s : State} (h : Capturing raw s)
    (h17 : 17 ≤ raw.length) (hlast : raw.length + 1 = s.tsize.toNat) (hplan : s.plan = [])
    (hin : s.input = b :: rest) :
    ∃ t, Reaches s t ∧ AttemptDone s (.msg (raw ++ [b]) s.tsize) rest t := by
  obtain ⟨z, hc, hcases⟩ := h.step_byte hplan hin
  obtain rfl : z = s.tsize := (sizeWith_of_cnt_ne (by rw [h.cnt]; omega)).1 hc.size
  obtain ⟨-, hmore⟩ | ⟨hstep, -, -⟩ | ⟨-, h16, -⟩ := hcases
  · omega
  · exact ⟨_, .of_step hstep, ⟨rfl, rfl, rfl⟩, hplan, rfl, rfl⟩
  · omega

theorem AttemptDone.of_out_eq {s s' t : State} {e : Event} {rest : List Byte} (h : AttemptDone s' e rest t)
    (hout : s'.out = s.out) : AttemptDone s e rest t :=
  ⟨h.scan_start, h.no_plan, h.input, hout ▸ h.out⟩

/-- A payload that is all there is captured, and completes the Message with its last byte (R94). -/
theorem Capturing.reaches_payload {raw pay rest : List Byte} {s : State} (h : Capturing raw s)
    (h17 : 17 ≤ raw.length) (hplan : s.plan = []) (hin : s.input = pay ++ rest)
    (hsize : s.tsize.toNat = raw.length + pay.length) :
    ∃ t, Reaches s t ∧ AttemptDone s (.msg (raw ++ pay) s.tsize) rest t := by
  have hroom := h.in_frame
  obtain rfl | ⟨p, b, rfl⟩ := List.eq_nil_or_concat' pay
  · rw [List.length_nil] at hsize
    omega
  · rw [List.length_append, List.length_singleton] at hsize
    rw [List.append_assoc] at hin
    obtain ⟨t, ht, hcap, htplan, htin, htout, htsize⟩ := h.reaches_captured hplan hin (by omega)
    have hlen : (raw ++ p).length = raw.length + p.length := List.length_append
    obtain ⟨u, hu, hdone⟩ := hcap.reaches_message (by omega) (by rw [htsize]; omega) htplan htin
    rw [htsize, List.append_assoc raw p [b]] at hdone
    exact ⟨u, ht.trans hu, hdone.of_out_eq htout⟩

/-- The fixed part of a frame, from the sync word on: the header and the length field are captured, and the size
they give decides (R91 to R93). -/
theorem Capturing.reaches_header {h pay : List Byte} {hi lo : Byte} {s : State}
    (hs : Capturing Config.syncWord s) (hplan : s.plan = []) (hin : s.input = h ++ hi :: lo :: pay)
    (hh : h.length = 11) :
    ∃ t, Reaches s t ∧
      (((assembleTotalSize hi lo).toNat < 17 ∧ AttemptDone s (.err .malformed) pay t) ∨
        ((assembleTotalSize hi lo).toNat = 17 ∧
          AttemptDone s (.msg (Config.syncWord ++ h ++ [hi, lo]) (assembleTotalSize hi lo)) pay t) ∨
        17 < (assembleTotalSize hi lo).toNat ∧ Capturing (Config.syncWord ++ h ++ [hi, lo]) t ∧
          t.plan = [] ∧ t.input = pay ∧ t.out = s.out ∧ t.tsize = assembleTotalSize hi lo) := by
  have hsplit : s.input = (h ++ [hi]) ++ lo :: pay := by rw [hin, List.append_assoc]; rfl
  obtain ⟨t, ht, hcap, htplan, htin, htout, -⟩ := hs.reaches_captured hplan hsplit
    (.inl (by rw [List.length_append, List.length_singleton, Config.syncWord_length]; omega))
  rw [← List.append_assoc] at hcap
  obtain ⟨u, hu, hends⟩ := hcap.reaches_length (by rw [List.length_append, hh]; rfl) htplan htin
  rw [List.append_assoc _ [hi] [lo]] at hends
  refine ⟨u, ht.trans hu, ?_⟩
  obtain ⟨hlt, hdone⟩ | ⟨heq, hdone⟩ | ⟨hgt, hcap', huplan, huin, huout, husize⟩ := hends
  · exact .inl ⟨hlt, hdone.of_out_eq htout⟩
  · exact .inr (.inl ⟨heq, hdone.of_out_eq htout⟩)
  · exact .inr (.inr ⟨hgt, hcap', huplan, huin, huout.trans htout, husize⟩)

/-- From the sync word on, the block ends every attempt as `decode`'s block reads do (R90, R99). -/
theorem Capturing.reaches_attempt {bs : List Byte} {d : Decoded} {s : State}
    (hs : Capturing Config.syncWord s) (hplan : s.plan = []) (hin : s.input = bs) (ha : Attempt bs d) :
    ∃ t, Reaches s t ∧ AttemptDone s d.event d.rest t := by
  have hfixed {h : List Byte} {hi lo : Byte} (hh : h.length = 11) :
      (Config.syncWord ++ h ++ [hi, lo]).length = 17 := by
    rw [List.length_append, List.length_append, hh]
    rfl
  cases ha with
  | headless bs hlen =>
    have hall : s.input = bs ++ [] := by rw [hin, List.append_nil]
    obtain ⟨t, ht, hcap, htplan, htin, htout, -⟩ := hs.reaches_captured hplan hall
      (.inl (by rw [Config.syncWord_length]; omega))
    obtain ⟨u, hu, hdone⟩ := hcap.reaches_truncated htplan htin
    exact ⟨u, ht.trans hu, hdone.of_out_eq htout⟩
  | malformed h pay hi lo hh hlt =>
    obtain ⟨t, ht, ⟨-, hdone⟩ | ⟨heq, -⟩ | ⟨hgt, -⟩⟩ := hs.reaches_header hplan hin hh
    · exact ⟨t, ht, hdone⟩
    · omega
    · omega
  | short h pay hi lo hh hlt =>
    obtain ⟨t, ht, ⟨hlt', -⟩ | ⟨heq, -⟩ | ⟨-, hcap, htplan, htin, htout, htsize⟩⟩ :=
      hs.reaches_header hplan hin hh
    · omega
    · omega
    · have hall : t.input = pay ++ [] := by rw [htin, List.append_nil]
      obtain ⟨u, hu, hcap', huplan, huin, huout, -⟩ := hcap.reaches_captured htplan hall
        (.inr (by rw [hfixed hh, htsize]; omega))
      obtain ⟨v, hv, hdone⟩ := hcap'.reaches_truncated huplan huin
      exact ⟨v, ht.trans (hu.trans hv), hdone.of_out_eq (huout.trans htout)⟩
  | whole h pay rest hi lo hh heq =>
    obtain ⟨t, ht, ⟨hlt, -⟩ | ⟨hempty, hdone⟩ | ⟨hgt, hcap, htplan, htin, htout, htsize⟩⟩ :=
      hs.reaches_header hplan hin hh
    · omega
    · obtain rfl : pay = [] := List.length_eq_zero_iff.1 (by omega)
      rw [List.append_nil]
      exact ⟨t, ht, hdone⟩
    · obtain ⟨u, hu, hdone⟩ := hcap.reaches_payload (hfixed hh).ge htplan htin
        (by rw [htsize, hfixed hh, heq])
      rw [htsize] at hdone
      exact ⟨u, ht.trans hu, hdone.of_out_eq htout⟩

/-! ### The loop -/

/-- A scan's end past a sync word is the start of an attempt. -/
theorem ScanStart.reaches_sync {z rest : List Byte} {s : State} (hstart : ScanStart s) (hplan : s.plan = [])
    (hin : s.input = z ++ Config.syncWord ++ rest)
    (hno : ¬ Config.syncWord <:+: z ++ Config.syncWord.take 3) :
    ∃ t, Reaches s t ∧ Capturing Config.syncWord t ∧ t.plan = [] ∧ t.input = rest ∧
      t.out = s.out ++ [.sync (skipOf z.length)] := by
  obtain ⟨t, hsteps, hst, hcnt, htin, htplan, -, hout, hcells⟩ := steps_to_sync hstart hplan hin hno
  refine ⟨t, ⟨_, hsteps⟩, ⟨hst, le_rfl, ?_, hcells, .inl (by decide)⟩, htplan, htin, hout⟩
  rw [hcnt]
  rfl

/-- From a scan's start the block reaches Done, and the events it adds are the source's on the stream. -/
theorem ScanStart.reaches_done {s : State} (hstart : ScanStart s) (hplan : s.plan = []) :
    ∃ t, Reaches s t ∧ t.st = .done ∧ t.plan = [] ∧ t.out = s.out ++ sourceRun s.input := by
  induction hin : s.input using loop_induction generalizing s with
  | hnone bs hfind =>
    subst hin
    obtain ⟨t, hsteps, hst, -, htplan, -, hout⟩ :=
      steps_to_exhausted hstart hplan (findSync_eq_none_iff.1 hfind)
    rw [sourceRun_of_none hfind]
    exact ⟨t, ⟨_, hsteps⟩, hst, htplan, hout⟩
  | hsome bs k rest hfind ih =>
    obtain ⟨z, rfl, rfl, hno⟩ := findSync_eq_some hfind
    obtain ⟨t, ht, hcap, htplan, htin, htout⟩ := hstart.reaches_sync hplan hin hno
    obtain ⟨u, hu, hdone⟩ := hcap.reaches_attempt htplan htin (attempt_decodeProc rest)
    obtain ⟨v, hv, hvst, hvplan, hvout⟩ := ih hdone.scan_start hdone.no_plan hdone.input
    refine ⟨v, ht.trans (hu.trans hv), hvst, hvplan, ?_⟩
    rw [hvout, hdone.out, htout, sourceRun_of_some hfind]
    simp

end Sys2Proof.Machine
end

section
/-! Runs (spec/42_control_fsm.md R112 to R114): a session takes its bytes one step each, reaches Done, and adds
the events of the source's loop. -/

namespace Sys2Proof.Machine

/-! ### Steps until Done -/

theorem toDone_of_done {s : State} (fuel : Nat) (h : s.st = .done) : toDone fuel s = some (0, s) := by
  cases fuel <;> exact if_pos h

theorem toDone_succ_of_next {s t : State} (fuel : Nat) (hst : s.st ≠ .done) (h : step s = .next t) :
    toDone (fuel + 1) s = (toDone fuel t).map fun r => (r.1 + 1, r.2) := by
  simp only [toDone, if_neg hst, h]
  cases toDone fuel t <;> rfl

/-- The state `toDone` answers is the one that many steps lead to. -/
theorem steps_of_toDone {fuel n : Nat} {s u : State} (h : toDone fuel s = some (n, u)) :
    steps n s = .next u := by
  induction fuel generalizing s n with
  | zero =>
    unfold toDone at h
    split_ifs at h
    cases h
    rfl
  | succ fuel ih =>
    by_cases hst : s.st = .done
    · rw [toDone_of_done _ hst] at h
      cases h
      rfl
    · simp only [toDone, if_neg hst] at h
      split at h
      · rename_i t hstep
        split at h
        · rename_i m v hv
          cases h
          rw [steps_succ_of_next m hstep, ih hv]
        · cases h
      · cases h
      · cases h

/-- Done is reached once: with no reset scheduled, all steps that lead to Done lead to one state (I-8). -/
theorem reaches_done_unique {s t u : State} (ht : Reaches s t) (hu : Reaches s u) (htst : t.st = .done)
    (htplan : t.plan = []) (hust : u.st = .done) (huplan : u.plan = []) : t = u := by
  obtain ⟨m, hm⟩ := ht
  obtain ⟨n, hn⟩ := hu
  have hold {v w : State} {i j : Nat} (hv : steps i s = .next v) (hw : steps (i + j) s = .next w)
      (hst : v.st = .done) (hplan : v.plan = []) : v = w := by
    rw [steps_add hv, doneHoldsForever v j hst hplan] at hw
    exact Host.Outcome.next.inj hw
  obtain hle | hle := Nat.le_total m n
  · obtain ⟨j, rfl⟩ := Nat.exists_eq_add_of_le hle
    exact hold hm hn htst htplan
  · obtain ⟨j, rfl⟩ := Nat.exists_eq_add_of_le hle
    exact (hold hn hm hust huplan).symm

/-! ### A session before its end -/

/-- A session that has not ended, with `rest` of its stream left. -/
structure Live (rest : List Byte) (s : State) : Prop where
  frame : FrameInv s
  no_plan : s.plan = []
  not_done : s.st ≠ .done
  input : s.input = rest

/-- On a byte a session goes on. -/
theorem Live.step {b : Byte} {rest : List Byte} {s : State} (h : Live (b :: rest) s) :
    ∃ t, Machine.step s = .next t ∧ Live rest t ∧ t.pos = s.pos + 1 := by
  obtain ⟨t, e, hstep⟩ := h.frame.step_byte h.no_plan h.not_done h.input
  have hinv := e.frameInv h.frame
  refine ⟨_, hstep, ⟨⟨hinv.cnt_zero, hinv.in_frame, hinv.written⟩, ?_, fun hdone => ?_, rfl⟩, e.pos_eq⟩
  · exact e.env_eq.2.trans h.no_plan
  · obtain ⟨-, hnone, -⟩ | ⟨hst, -⟩ := e.of_done hdone
    · cases hnone
    · exact h.not_done hst

/-- Over a stretch of bytes a session takes one step each. -/
theorem Live.steps {bs rest : List Byte} {s : State} (h : Live (bs ++ rest) s) :
    ∃ m, Machine.steps bs.length s = .next m ∧ Live rest m ∧ m.pos = s.pos + bs.length ∧
      ∀ fuel, toDone (bs.length + fuel) s = (toDone fuel m).map fun r => (bs.length + r.1, r.2) := by
  induction bs generalizing s with
  | nil =>
    refine ⟨s, rfl, h, rfl, fun fuel => ?_⟩
    rw [List.length_nil, Nat.zero_add]
    simp
  | cons b bs ih =>
    obtain ⟨t, hstep, ht, hpos⟩ := h.step
    obtain ⟨m, hsteps, hm, hmpos, hdone⟩ := ih ht
    refine ⟨m, (steps_succ_of_next _ hstep).trans hsteps, hm, ?_, fun fuel => ?_⟩
    · rw [hmpos, hpos, List.length_cons]
      omega
    · rw [List.length_cons, Nat.succ_add, toDone_succ_of_next _ h.not_done hstep, hdone, Option.map_map]
      congr 1
      funext r
      simp only [Function.comp_apply, Prod.mk.injEq, and_true]
      omega

/-- The events at the end of the stream: a frame cut short is reported first (R84, R95). -/
def endEvents (s : State) : List Event :=
  if s.st = .decoding then [.err .truncated, .exhausted] else [.exhausted]

/-- The steps from the end of the stream to Done. -/
def endSteps (s : State) : Nat := if s.st = .decoding then 2 else 1

theorem isScan_of_ne {s : State} (hdec : s.st ≠ .decoding) (hdone : s.st ≠ .done) : s.st.isScan = true := by
  cases hst : s.st with
  | scanning | recovering => rfl
  | decoding => exact absurd hst hdec
  | done => exact absurd hst hdone

/-- At the end of the stream a session goes to Done, through Recovering if it was in Decoding (R112). -/
theorem Live.toDone {s : State} (h : Live [] s) :
    ∃ u, Machine.toDone 2 s = some (endSteps s, u) ∧ u.st = .done ∧ u.plan = [] ∧ u.input = [] ∧
      u.cnt = 0 ∧ u.pos = s.pos ∧ u.out = s.out ++ endEvents s := by
  have hscan_end {v : State} (fuel : Nat) (hscan : v.st.isScan = true) (hplan : v.plan = [])
      (hin : v.input = []) : Machine.toDone (fuel + 1) v =
        some (1, { v with out := v.out ++ [.exhausted], st := .done }) := by
    rw [toDone_succ_of_next fuel (st_ne_of_isScan hscan).2 (step_of_scan_eos hscan hplan hin),
      toDone_of_done _ rfl]
    rfl
  by_cases hdec : s.st = .decoding
  · obtain ⟨t, e, hstep⟩ := h.frame.step_eos h.no_plan h.input
    cases e with
    | exhaust hscan => exact absurd hdec (st_ne_of_isScan hscan).1
    | hold hst => exact absurd hst h.not_done
    | truncate _ =>
      refine ⟨{ s.raise .truncated with out := s.out ++ [.err .truncated] ++ [.exhausted], st := .done }, ?_,
        rfl, h.no_plan, h.input, rfl, rfl, ?_⟩
      · rw [toDone_succ_of_next 1 h.not_done hstep, endSteps, if_pos hdec,
          hscan_end 0 (v := s.raise .truncated) rfl h.no_plan h.input]
        rfl
      · rw [endEvents, if_pos hdec]
        exact List.append_assoc _ _ _
  · have hscan := isScan_of_ne hdec h.not_done
    refine ⟨{ s with out := s.out ++ [.exhausted], st := .done }, ?_, rfl, h.no_plan, h.input, ?_, rfl, ?_⟩
    · rw [hscan_end 1 hscan h.no_plan h.input, endSteps, if_neg hdec]
    · exact BitVec.eq_of_toNat_eq (h.frame.cnt_zero hdec)
    · rw [endEvents, if_neg hdec]

/-- From a scan's start a session reaches Done within two steps more than its stream has bytes, and adds the
source's events. -/
theorem toDone_of_scanStart {s : State} (hstart : ScanStart s) (hplan : s.plan = []) (hcnt : s.cnt = 0) :
    ∃ k u, toDone (s.input.length + 2) s = some (k, u) ∧ u.out = s.out ++ sourceRun s.input := by
  obtain ⟨hdec, hdone⟩ := st_ne_of_isScan hstart.1
  have hlive : Live (s.input ++ []) s :=
    ⟨⟨fun _ => by rw [hcnt]; rfl, fun h => absurd h hdec, fun h => absurd h hdec⟩, hplan, hdone,
      (List.append_nil _).symm⟩
  obtain ⟨m, -, hm, -, hmdone⟩ := hlive.steps
  obtain ⟨u, hu, hust, huplan, -⟩ := hm.toDone
  have htodone : toDone (s.input.length + 2) s = some (s.input.length + endSteps m, u) := by
    rw [hmdone, hu]
    rfl
  obtain ⟨t, ht, htst, htplan, htout⟩ := hstart.reaches_done hplan
  obtain rfl : t = u := reaches_done_unique ht ⟨_, steps_of_toDone htodone⟩ htst htplan hust huplan
  exact ⟨_, t, htodone, htout⟩

theorem live_session (bs : List Byte) : Live bs (session bs) :=
  ⟨.of_blockInv (blockInv_reset wf_reset [] bs []), rfl, nofun, rfl⟩

/-! ### The obligations -/

/-- A run is the events of its final state (R112). -/
theorem run_of_runState {bs : List Byte} {k : Nat} {u : State} (h : runState bs = some (k, u)) :
    run bs = some u.out := by
  simp only [run, h]

/-- Settles O47: `toDone_of_scanStart` at a session's start, whose events are empty. -/
theorem runRefinesSourceLoop : Obligations.RunRefinesSourceLoop := by
  intro bs
  obtain ⟨k, u, hu, hout⟩ := toDone_of_scanStart (scanStart_session bs) rfl rfl
  exact (run_of_runState hu).trans (congrArg some hout)

/-- Settles O56: `toDone_of_scanStart`, which asks nothing of the frame buffer or the earlier events. -/
theorem sessionsIndependent : Obligations.SessionsIndependent := by
  intro bs fb es
  obtain ⟨n, u, hu, hout⟩ :=
    toDone_of_scanStart (s := { session bs with fb := fb, out := es }) ⟨rfl, rfl, rfl⟩ rfl rfl
  exact ⟨n, u, sourceRun bs, runRefinesSourceLoop bs, hu, hout⟩

/-- A session's run: its bytes, one step each, and the end of its stream. -/
theorem session_run (bs : List Byte) :
    ∃ m u, steps bs.length (session bs) = .next m ∧ Live [] m ∧ m.pos = bs.length ∧
      runState bs = some (bs.length + endSteps m, u) ∧ u.st = .done ∧ u.input = [] ∧ u.cnt = 0 ∧
      u.pos = bs.length ∧ u.out = m.out ++ endEvents m := by
  have hlive : Live (bs ++ []) (session bs) := by
    rw [List.append_nil]
    exact live_session bs
  obtain ⟨m, hsteps, hm, hpos, hdone⟩ := hlive.steps
  obtain ⟨u, hu, hust, -, huin, hucnt, hupos, huout⟩ := hm.toDone
  have hmpos : m.pos = bs.length := hpos.trans (Nat.zero_add _)
  refine ⟨m, u, hsteps, hm, hmpos, ?_, hust, huin, hucnt, hupos.trans hmpos, huout⟩
  rw [runState, hdone, hu]
  rfl

/-- Settles O46: `session_run`, whose last steps are one from a scan and two from Decoding. -/
theorem runEndsInDone : Obligations.RunEndsInDone := by
  intro bs
  obtain ⟨m, u, hsteps, hm, -, hrun, hust, huin, hucnt, hupos, -⟩ := session_run bs
  refine ⟨m, _, u, hsteps, hm.not_done, hm.input, hrun, ?_, hust, hucnt, hupos, huin⟩
  rw [endSteps]
  split_ifs <;> rfl

/-- A step on a byte does not depend on what follows the byte. -/
theorem step_input_congr {b : Byte} {xs ys : List Byte} {s t : State} (h : Live (b :: xs) s)
    (hstep : step s = .next t) : step { s with input := b :: ys } = .next { t with input := ys } := by
  obtain ⟨i, t, hfetch, hexec, rfl⟩ := step_next hstep
  have hin := h.input
  have hne : i ≠ .reset := by
    rintro rfl
    have hreset := resetIn_of_fetch hfetch
    rw [resetIn_of_plan_nil h.no_plan] at hreset
    cases hreset
  have hfetch' : State.fetch { s with input := b :: ys } = .ok i := by
    have hsame : s.presented = .byte b := by rw [State.presented, hin]
    rw [State.fetch, hsame] at hfetch
    exact hfetch
  have hbyte : i.format = .byteSymbol := by
    obtain ⟨-, hend⟩ := input_of_fetch hfetch hne
    cases i with
    | scanEos | decEos | doneHold =>
      have hnil := hend rfl h.not_done
      rw [hin] at hnil
      cases hnil
    | reset => exact absurd rfl hne
    | scanShift | scanMatch | hdrByte | lenHi | lenLo | payByte => rfl
  have hcongr := exec_input_congr i s (b :: ys)
  rw [hexec] at hcongr
  rw [step_of_fetch hfetch']
  cases hexec' : exec i { s with input := b :: ys } with
  | next u =>
    rw [hexec'] at hcongr
    have hu : u = { t with input := b :: ys } := hcongr
    rw [hu, thenEnv, advanceEnv_of_ne_reset _ hne, advanceEnv_of_ne_reset _ hne, if_pos hbyte]
    rfl
  | fault f =>
    rw [hexec'] at hcongr
    cases hcongr
  | refused q =>
    rw [hexec'] at hcongr
    cases hcongr

/-- Over a stretch of bytes a session does not depend on what follows them. -/
theorem steps_input_congr {bs xs ys : List Byte} {s t : State} (h : Live (bs ++ xs) s)
    (hsteps : steps bs.length s = .next t) :
    steps bs.length { s with input := bs ++ ys } = .next { t with input := ys } := by
  induction bs generalizing s with
  | nil =>
    cases hsteps
    rfl
  | cons b bs ih =>
    obtain ⟨u, hstep, hu, -⟩ := h.step
    rw [List.length_cons, steps_succ_of_next _ hstep] at hsteps
    exact (steps_succ_of_next _ (step_input_congr h hstep)).trans (ih hu hsteps)

/-- Settles O55: both sessions take the same steps over the common bytes (`steps_input_congr`), and the run of
`a` then adds its end-of-stream events (`session_run`). -/
theorem eventsAreCausal : Obligations.EventsAreCausal := by
  intro a b
  obtain ⟨m, u, hsteps, -, -, hrun, -, -, -, -, hout⟩ := session_run a
  have hlive : Live (a ++ []) (session a) := by
    rw [List.append_nil]
    exact live_session a
  have hlonger : steps a.length (session (a ++ b)) = .next { m with input := b } :=
    steps_input_congr (s := session a) (ys := b) hlive hsteps
  refine ⟨m, _, endEvents m, hsteps, hlonger, rfl, ?_, ?_⟩
  · exact (run_of_runState hrun).trans (congrArg some hout)
  · rw [endEvents]
    split_ifs
    · exact .inr rfl
    · exact .inl rfl

end Sys2Proof.Machine
end

section
/-! What runs report (spec/30_encoding.md R77, 42_control_fsm.md R113, R116): by `runRefinesSourceLoop` each
statement is one about the source's loop on a byte list. -/

namespace Sys2Proof.Machine

/-! ### Messages and frames -/

/-- A frame whose length field is its length is a Message (R101). -/
theorem messageOk_frame {h pay : List Byte} {hi lo : Byte} (hh : h.length = 11)
    (heq : (assembleTotalSize hi lo).toNat = 17 + pay.length) :
    MessageOk (Config.syncWord ++ h ++ [hi, lo] ++ pay) (assembleTotalSize hi lo) := by
  have hfront : (Config.syncWord ++ h).length = 15 := by rw [List.length_append, hh]; rfl
  have hassoc : Config.syncWord ++ h ++ [hi, lo] ++ pay = (Config.syncWord ++ h) ++ (hi :: lo :: pay) :=
    List.append_assoc _ _ _
  refine ⟨?_, ?_, by omega, hi, ?_, lo, ?_, assembleTotalSize_toNat hi lo⟩
  · rw [syncView, hassoc, List.append_assoc]
    exact List.take_left' rfl
  · rw [hassoc, List.length_append, hfront, heq, List.length_cons, List.length_cons]
    omega
  · rw [hassoc, List.getElem?_append_right (by omega), hfront]
    rfl
  · rw [hassoc, List.getElem?_append_right (by omega), hfront]
    rfl

/-- Every Message is a frame whose length field is its length (R68, R101). -/
theorem MessageOk.exists_frame {raw : List Byte} {t : Word} (hraw : MessageOk raw t) :
    ∃ h hi lo pay, raw = Config.syncWord ++ h ++ [hi, lo] ++ pay ∧ h.length = 11 ∧
      t = assembleTotalSize hi lo ∧ t.toNat = 17 + pay.length := by
  obtain ⟨hsync, hlen, h17, hi, hhi, lo, hlo, ht⟩ := hraw
  have hsplit : raw = Config.syncWord ++ raw.drop 4 := by
    rw [← hsync, syncView, List.take_append_drop]
  obtain ⟨h, hi', lo', pay, hdrop, hh⟩ := exists_header (bs := raw.drop 4)
    (by rw [List.length_drop]; omega)
  have hframe : raw = (Config.syncWord ++ h) ++ hi' :: lo' :: pay := by
    rw [hsplit, hdrop, List.append_assoc]
  have hfront : (Config.syncWord ++ h).length = 15 := by rw [List.length_append, hh]; rfl
  rw [hframe, List.getElem?_append_right (by omega), hfront] at hhi hlo
  obtain rfl : hi' = hi := Option.some.inj hhi
  obtain rfl : lo' = lo := Option.some.inj hlo
  refine ⟨h, hi', lo', pay, hframe.trans (by simp), hh, ?_, ?_⟩
  · exact BitVec.eq_of_toNat_eq (ht.trans (assembleTotalSize_toNat hi' lo').symm)
  · rw [← hlen, hframe, List.length_append, hfront, List.length_cons, List.length_cons]
    omega

/-! ### The loop on streams that begin with a known attempt -/

section Leftmost

variable {z : List Byte} (hno : ¬ Config.syncWord <:+: z ++ Config.syncWord.take 3)
include hno

/-- Discarded bytes, a sync word, and an attempt known to end some way. -/
theorem sourceRun_of_attempt {bs : List Byte} {d : Decoded} (ha : Attempt bs d) :
    sourceRun (z ++ Config.syncWord ++ bs) =
      .sync (skipOf z.length) :: d.event :: sourceRun d.rest := by
  rw [sourceRun_of_some (findSync_of_leftmost bs hno), ha.decodeProc_eq]

/-- Discarded bytes and a Message. -/
theorem sourceRun_message {raw : List Byte} {t : Word} (hraw : MessageOk raw t) (rest : List Byte) :
    sourceRun (z ++ raw ++ rest) = .sync (skipOf z.length) :: .msg raw t :: sourceRun rest := by
  obtain ⟨h, hi, lo, pay, rfl, hh, rfl, heq⟩ := hraw.exists_frame
  have hsplit : z ++ (Config.syncWord ++ h ++ [hi, lo] ++ pay) ++ rest =
      z ++ Config.syncWord ++ (h ++ hi :: lo :: (pay ++ rest)) := by simp
  rw [hsplit]
  exact sourceRun_of_attempt hno (.whole h pay rest hi lo hh heq)

/-- Discarded bytes and a frame with a size below 17. -/
theorem sourceRun_malformed {h : List Byte} {hi lo : Byte} (hh : h.length = 11)
    (hlt : (assembleTotalSize hi lo).toNat < 17) (rest : List Byte) :
    sourceRun (z ++ (Config.syncWord ++ h ++ [hi, lo]) ++ rest) =
      .sync (skipOf z.length) :: .err .malformed :: sourceRun rest := by
  have hsplit : z ++ (Config.syncWord ++ h ++ [hi, lo]) ++ rest =
      z ++ Config.syncWord ++ (h ++ hi :: lo :: rest) := by simp
  rw [hsplit]
  exact sourceRun_of_attempt hno (.malformed h rest hi lo hh hlt)

/-- Discarded bytes and a frame that the stream ends in. -/
theorem sourceRun_truncated {bs : List Byte} (ha : Attempt bs .truncated) :
    sourceRun (z ++ Config.syncWord ++ bs) = [.sync (skipOf z.length), .err .truncated, .exhausted] :=
  sourceRun_of_attempt hno ha

end Leftmost

/-- No byte before the sync word's own. -/
theorem not_sync_infix_take : ¬ Config.syncWord <:+: [] ++ Config.syncWord.take 3 := by decide

/-! ### The shape of a run -/

/-- Settles O48: along the loop, each attempt's way of ending is a clause of the grammar and of the
accounting. -/
theorem runAccountsForInput : Obligations.RunAccountsForInput := by
  intro bs
  refine ⟨sourceRun bs, runRefinesSourceLoop bs, ?_⟩
  induction bs using loop_induction with
  | hnone bs hfind =>
    rw [sourceRun_of_none hfind]
    exact ⟨trivial, trivial⟩
  | hsome bs k rest hfind ih =>
    obtain ⟨z, rfl, rfl, -⟩ := findSync_eq_some hfind
    rw [sourceRun_of_some hfind]
    have ha := attempt_decodeProc rest
    generalize decodeProc rest = d at ha ih ⊢
    have hcut : Accounts [.sync (skipOf z.length), .err .truncated, .exhausted]
        (z ++ Config.syncWord ++ rest) := by
      refine ⟨z, Config.syncWord ++ rest, List.append_assoc _ _ _, rfl, ?_, List.take_left' rfl⟩
      rw [List.length_append, Config.syncWord_length]
      exact Nat.le_add_right _ _
    obtain ⟨hshape, hacc⟩ := ih
    cases ha with
    | headless | short => exact ⟨trivial, hcut⟩
    | malformed h pay hi lo hh hlt =>
      refine ⟨hshape, z, Config.syncWord ++ h ++ [hi, lo], pay, by simp, rfl, ?_, ?_, hacc⟩
      · simp [hh]
      · rw [syncView, List.append_assoc]
        exact List.take_left' rfl
    | whole h pay rest hi lo hh heq =>
      have hok := messageOk_frame hh heq
      exact ⟨⟨hok, hshape⟩, z, rest, by simp, rfl, hok, hacc⟩

/-- Zeros before a sync word complete none: the word has two bytes F0. -/
theorem not_sync_infix_zeros (n : Nat) :
    ¬ Config.syncWord <:+: List.replicate n 0 ++ Config.syncWord.take 3 := fun h => by
  have hcount := h.sublist.count_le (0xF0 : Byte)
  rw [List.count_append, List.count_replicate, if_neg (by decide)] at hcount
  exact absurd hcount (by decide)

/-- A SYNC event's count is the saturated count of that many bytes. -/
theorem skipOf_toNat_self (k : SkipCount) : skipOf k.toNat = k := by
  refine BitVec.eq_of_toNat_eq ?_
  have hk := k.isLt
  rw [skipOf_toNat]
  omega

/-- Settles O49, along the grammar: as many zeros as the SYNC event counts, and then the Message itself, a frame
of size 0, or a bare sync word. -/
theorem everyShapeIsARun : Obligations.EveryShapeIsARun := by
  intro es hes
  suffices ∃ bs, sourceRun bs = es by
    obtain ⟨bs, rfl⟩ := this
    exact ⟨bs, runRefinesSourceLoop bs⟩
  have hzeros (k : SkipCount) := not_sync_infix_zeros k.toNat
  have hskip (k : SkipCount) : skipOf (List.replicate k.toNat (0 : Byte)).length = k := by
    rw [List.length_replicate, skipOf_toNat_self]
  induction es using RunShape.induct with
  | case1 => exact ⟨[], rfl⟩
  | case2 k raw t es ih =>
    obtain ⟨hraw, hes⟩ := hes
    obtain ⟨rest, hrest⟩ := ih hes
    exact ⟨_, by rw [sourceRun_message (hzeros k) hraw rest, hskip, hrest]⟩
  | case3 k es ih =>
    obtain ⟨rest, hrest⟩ := ih hes
    have hrun := sourceRun_malformed (hzeros k) (h := List.replicate 11 0) (hi := 0) (lo := 0) rfl
      (by decide) rest
    exact ⟨_, by rw [hrun, hskip, hrest]⟩
  | case4 k =>
    have hrun := sourceRun_truncated (hzeros k) (.headless [] (by decide))
    exact ⟨_, by rw [hrun, hskip]⟩
  | case5 =>
    rw [RunShape] at hes
    · exact hes.elim
    all_goals assumption

/-! ### Encoded frames -/

/-- The two bytes the encoder writes assemble to the frame's length (R77). -/
theorem assembleTotalSize_encoded {n : Nat} (h : n < 65536) :
    (assembleTotalSize (BitVec.ofNat 8 (n / 256)) (BitVec.ofNat 8 (n % 256))).toNat = n := by
  rw [assembleTotalSize_toNat, BitVec.toNat_ofNat, BitVec.toNat_ofNat]
  omega

section Encoded

variable {h p : List Byte} (he : Encodable h p)
include he

theorem encodedSize_toNat : (BitVec.ofNat 16 (17 + p.length)).toNat = 17 + p.length := by
  obtain ⟨-, hp⟩ := he
  rw [BitVec.toNat_ofNat]
  omega

/-- An encoded frame is a Message of the size it was encoded with. -/
theorem messageOk_encodeFrame : MessageOk (encodeFrame h p) (BitVec.ofNat 16 (17 + p.length)) := by
  obtain ⟨hh, hp⟩ := he
  have hsize := assembleTotalSize_encoded (n := 17 + p.length) (by omega)
  have ht : BitVec.ofNat 16 (17 + p.length) = assembleTotalSize (BitVec.ofNat 8 ((17 + p.length) / 256))
      (BitVec.ofNat 8 ((17 + p.length) % 256)) :=
    BitVec.eq_of_toNat_eq ((encodedSize_toNat ⟨hh, hp⟩).trans hsize.symm)
  rw [ht]
  exact messageOk_frame hh hsize

/-- An encoded frame in front of a stream. -/
theorem sourceRun_encodeFrame_append (rest : List Byte) :
    sourceRun (encodeFrame h p ++ rest) =
      .sync 0 :: .msg (encodeFrame h p) (BitVec.ofNat 16 (17 + p.length)) :: sourceRun rest :=
  sourceRun_message not_sync_infix_take (messageOk_encodeFrame he) rest

theorem headerView_encodeFrame : headerView (encodeFrame h p) = h := by
  rw [headerView, encodeFrame, List.append_assoc, List.append_assoc, List.drop_left' Config.syncWord_length,
    List.take_left' he.1]

theorem payloadView_encodeFrame : payloadView (encodeFrame h p) = p :=
  List.drop_left' (by simp [he.1])

end Encoded

theorem sourceRun_nil : sourceRun [] = [.exhausted] := rfl

/-- Settles O50: `sourceRun_encodeFrame_append` with nothing after the frame, and the two views. -/
theorem encodedFrameRoundTrip : Obligations.EncodedFrameRoundTrip := by
  intro h p he
  refine ⟨BitVec.ofNat 16 (17 + p.length), encodedSize_toNat he, ?_, headerView_encodeFrame he,
    payloadView_encodeFrame he⟩
  have hrun := sourceRun_encodeFrame_append he []
  rw [List.append_nil, sourceRun_nil] at hrun
  rw [runRefinesSourceLoop, hrun]

/-- Settles O51, by induction on the frames: each is in front of the stream of the others. -/
theorem backToBackFrames : Obligations.BackToBackFrames := by
  intro fs hfs
  rw [runRefinesSourceLoop]
  refine congrArg some ?_
  induction fs with
  | nil => rfl
  | cons f fs ih =>
    rw [List.flatMap_cons, sourceRun_encodeFrame_append (hfs f List.mem_cons_self),
      ih fun g hg => hfs g (List.mem_cons_of_mem f hg)]
    rfl

/-- Settles O52: `sourceRun_message` on the encoded frame. -/
theorem noiseTolerated : Obligations.NoiseTolerated := by
  intro z h p he hno
  have hrun := sourceRun_message (z := z) hno (messageOk_encodeFrame he) []
  rw [List.append_nil, sourceRun_nil] at hrun
  rw [runRefinesSourceLoop, hrun]

/-- Settles O54: `sourceRun_malformed` at the start of the stream. -/
theorem malformedLengthRecovered : Obligations.MalformedLengthRecovered := by
  intro h r lo hh hlo
  refine ⟨sourceRun r, runRefinesSourceLoop r, ?_⟩
  have hlt : (assembleTotalSize 0 lo).toNat < 17 := by
    rw [assembleTotalSize_toNat]
    simpa using hlo
  rw [runRefinesSourceLoop]
  exact congrArg some (sourceRun_malformed not_sync_infix_take hh hlt r)

/-- A frame cut after the sync word and before its end is an attempt that the stream ends in. -/
theorem attempt_truncated_of_cut {h p : List Byte} (he : Encodable h p) {n : Nat} (hn : n < 13 + p.length) :
    Attempt (((encodeFrame h p).drop 4).take n) .truncated := by
  obtain ⟨hh, hp⟩ := he
  have hsize := assembleTotalSize_encoded (n := 17 + p.length) (by omega)
  generalize hhi : BitVec.ofNat 8 ((17 + p.length) / 256) = hi at hsize
  generalize hlo : BitVec.ofNat 8 ((17 + p.length) % 256) = lo at hsize
  have hdrop : (encodeFrame h p).drop 4 = (h ++ [hi, lo]) ++ p := by
    rw [encodeFrame, hhi, hlo, List.append_assoc, List.append_assoc, List.drop_left' Config.syncWord_length,
      List.append_assoc]
  rw [hdrop]
  obtain hshort | hlong := Nat.lt_or_ge n 13
  · exact .headless _ (by rw [List.length_take]; omega)
  · have hlen : (h ++ [hi, lo]).length = 13 := by rw [List.length_append, hh]; rfl
    rw [List.take_append, List.take_of_length_le (by omega), hlen, List.append_assoc]
    exact .short h (p.take (n - 13)) hi lo hh (by rw [hsize, List.length_take]; omega)

/-- Settles O53: from four bytes on the cut frame is the sync word and an attempt that the stream ends in; a
shorter one has no room for a sync word. -/
theorem truncationReported : Obligations.TruncationReported := by
  intro h p g he hpre hlt
  rw [runRefinesSourceLoop]
  refine ⟨fun h4 => congrArg some ?_, fun h4 => congrArg some ?_⟩
  · obtain ⟨hsync, -⟩ := messageOk_encodeFrame he
    have hframe : encodeFrame h p = Config.syncWord ++ (encodeFrame h p).drop 4 := by
      rw [← hsync, syncView, List.take_append_drop]
    have hg : g = [] ++ Config.syncWord ++ ((encodeFrame h p).drop 4).take (g.length - 4) :=
      calc g = (encodeFrame h p).take g.length := List.prefix_iff_eq_take.1 hpre
        _ = (Config.syncWord ++ (encodeFrame h p).drop 4).take g.length := by rw [← hframe]
        _ = _ := by rw [List.take_append, List.take_of_length_le h4]; rfl
    rw [hg]
    exact sourceRun_truncated not_sync_infix_take (attempt_truncated_of_cut he (by omega))
  · refine sourceRun_of_none (findSync_eq_none_iff.2 fun hinf => ?_)
    have hlen := hinf.length_le
    rw [Config.syncWord_length] at hlen
    omega

end Sys2Proof.Machine
end
